-- ==== Sys2Proof/Word.lean ====
section
/-! DEFINITION. The word types of the block (00_scope.md R5, R6): bytes, the 16-bit fields of both wire
formats, and the 15-bit sequence numbers. -/

namespace Sys2Proof

/-- A byte, the unit of every byte sequence (R6). -/
abbrev Byte := BitVec 8

/-- A 16-bit field: the station address, an APCI control word, a U command code (R12, R13, R47). -/
abbrev Word16 := BitVec 16

/-- A sequence number: 15 bits wide, so that 32768 or more cannot be presented (R84). -/
abbrev Seq15 := BitVec 15

end Sys2Proof
end

