-- ==== Sys2Proof/Machine/Params.lean ====
section
/-! DEFINITION. The implementation parameters the spec fixes (00_scope.md R5), the fixed bytes of the two wire
formats (30_encoding.md R44, R45), the operation selects (R54) and the six named U command codes (R49). -/

namespace Sys2Proof

/-- The start byte of both wire formats (R40, R45). -/
def startByte : Byte := 0x68

/-- The end byte of an FT1.2 frame (R40). -/
def endByte : Byte := 0x16

/-- The smallest FT1.2 LEN: CONTROL and the two address bytes (R5). -/
def ft12LenMin : Nat := 3

/-- The bytes of an FT1.2 frame that LEN does not count: four of header, CHECKSUM and END (R42). -/
def ft12Overhead : Nat := 6

/-- The most user data an FT1.2 frame holds (R5). -/
def ft12DataMax : Nat := 252

/-- The longest FT1.2 frame on the wire, the least that ACC_CAP may be (R5). -/
def ft12FrameMax : Nat := 261

/-- The smallest APCI LEN: the four control bytes (R5). -/
def apciLenMin : Nat := 4

/-- The bytes of an APCI frame that LEN does not count: START and LEN itself (R46). -/
def apciOverhead : Nat := 2

/-- The longest payload of an APCI frame (R5). -/
def apciPayloadMax : Nat := 251

/-! The operation selects of R54. -/

def opReset : BitVec 4 := 0x0
def opFt12Encode : BitVec 4 := 0x1
def opFt12TryParse : BitVec 4 := 0x2
def opFt12Append : BitVec 4 := 0x3
def opApciEncI : BitVec 4 := 0x8
def opApciEncS : BitVec 4 := 0x9
def opApciEncU : BitVec 4 := 0xA
def opApciTryParse : BitVec 4 := 0xB

/-- The reserved selects, 0x4 to 0x7 and 0xC to 0xF, are those with bit 2 set (R54, R56). -/
def opIsReserved (op : BitVec 4) : Bool := op &&& 0x4#4 == 0x4#4

/-! The six named U command codes, as values of the word F1 (R49). -/

def codeStartdtAct : Word16 := 0x0007
def codeStartdtCon : Word16 := 0x000B
def codeStopdtAct : Word16 := 0x0013
def codeStopdtCon : Word16 := 0x0023
def codeTestfrAct : Word16 := 0x0043
def codeTestfrCon : Word16 := 0x0083

/-- A code is one of the six that R49 names. -/
def isNamedCode (code : Word16) : Bool :=
  code == codeStartdtAct || code == codeStartdtCon || code == codeStopdtAct || code == codeStopdtCon
    || code == codeTestfrAct || code == codeTestfrCon

/-- A 16-bit value is a U command code at all when its two low bits are 11 (R48, R85). -/
def isUCode (code : Word16) : Bool := code &&& 0x3#16 == 0x3#16

/-- The first control word of every encoded S-frame (R50). -/
def sFrameWord : Word16 := 0x0001

end Sys2Proof
end

