-- ==== Sys2Proof/Config.lean ====
section
/-! DEFINITION. The one parameter the spec leaves open: the capacity of the accumulator (00_scope.md R5,
92_eei_decisions.md D4). -/

namespace Sys2Proof

/-- What the accumulator holds beyond the least capacity the spec allows; `none` is unbounded. It has no body: nothing
can be proved of its value (log entry 3). -/
opaque Config.accHeadroom : Option Nat

/-- `ACC_CAP`: a natural number of at least 261, or `none` for unbounded (R5). Every such value, and no other, is some
value of the headroom. -/
def Config.accCap : Option Nat := Config.accHeadroom.map (ft12FrameMax + ·)

end Sys2Proof
end

