-- ==== Sys2Proof/Machine/Bytes.lean ====
section
/-! DEFINITION. Byte sequences, byte order, the checksum, and the layouts of the two wire formats (00_scope.md R6,
20_memory.md R20 to R22, 30_encoding.md R40, R41, R45). -/

namespace Sys2Proof

/-- The low byte of a 16-bit field, which stands at the lower index (R21). -/
def loByte (v : Word16) : Byte := v.setWidth 8

/-- The high byte of a 16-bit field, which stands at the higher index (R21). -/
def hiByte (v : Word16) : Byte := (v >>> 8).setWidth 8

/-- The 16-bit field that two bytes in wire order hold: `lo | (hi << 8)` (R6). -/
def word16 (lo hi : Byte) : Word16 := lo.setWidth 16 ||| (hi.setWidth 16 <<< 8)

/-- The two bytes of a 16-bit field in wire order (R22). -/
def word16Bytes (v : Word16) : List Byte := [loByte v, hiByte v]

/-- `B[i]` (R6). Every rule establishes `i < len(B)` before it reads, so the default is never the answer. -/
def byteAt (b : List Byte) (i : Nat) : Byte := b.getD i 0

/-- `MemRead(B, i, 2)` (R6, R22). -/
def word16At (b : List Byte) (i : Nat) : Word16 := word16 (byteAt b i) (byteAt b (i + 1))

/-- `B[i..j]`: the bytes of indices i to j-1, empty when j <= i (R6). -/
def slice (b : List Byte) (i j : Nat) : List Byte := (b.drop i).take (j - i)

/-- The exact sum of the bytes, each one unsigned (R41). -/
def byteSum : List Byte → Nat
  | [] => 0
  | b :: bs => b.toNat + byteSum bs

/-- The checksum of a byte region: its sum modulo 256 (R41). Not a CRC (R2, 90_conflicts.md C1). -/
def checksum (bs : List Byte) : Byte := BitVec.ofNat 8 (byteSum bs)

/-- The 16-bit control word that holds a sequence number in bits 15:1 and `low` in bit 0 (R47, C2). -/
def seqWord (seq : Seq15) (low : BitVec 1) : Word16 := (seq.setWidth 16 <<< 1) ||| low.setWidth 16

/-- The sequence number of a control word: `word >> 1` (R47). -/
def seqOf (w : Word16) : Seq15 := (w >>> 1).setWidth 15

/-- The leading bytes of an FT1.2 frame kind, `68 LEN LEN2 68`, and the bytes from offset 4 on (R40). -/
def ft12WireBytes (len len2 : Byte) (rest : List Byte) : List Byte :=
  startByte :: len :: len2 :: startByte :: rest

/-- The leading bytes of an APCI frame, `68 LEN CTRL1 CTRL2 CTRL3 CTRL4`, and the bytes from offset 6 on (R45). -/
def apciWireBytes (len : Byte) (f1 f2 : Word16) (rest : List Byte) : List Byte :=
  startByte :: len :: loByte f1 :: hiByte f1 :: loByte f2 :: hiByte f2 :: rest

/-- The `n` low bytes of a number, least significant first: the numbering of `spec/opcode_table.json`'s words. -/
def bytesOfNat : Nat → Nat → List Byte
  | 0, _ => []
  | n + 1, w => BitVec.ofNat 8 w :: bytesOfNat n (w / 256)

end Sys2Proof
end

