-- ==== Sys2Proof/Machine/Operands.lean ====
section
/-! DEFINITION. The operand limits of the encode operations (40_ft12_framer.md R62, 41_apci_codec.md R82, R86) and of
the accumulator (40_ft12_framer.md R70). -/

namespace Sys2Proof.Machine

/-- User data that the one-byte LEN can count (R62). -/
def ft12DataFits (data : List Byte) : Bool := decide (data.length ≤ ft12DataMax)

/-- A payload that the one-byte LEN can count (R82). -/
def apciPayloadFits (payload : List Byte) : Bool := decide (payload.length ≤ apciPayloadMax)

/-- The LEN byte of an FT1.2 frame with this user data (R40). -/
def ft12LenByte (data : List Byte) : Byte := BitVec.ofNat 8 (ft12LenMin + data.length)

/-- The LEN byte of an APCI frame with this payload (R45). -/
def apciLenByte (payload : List Byte) : Byte := BitVec.ofNat 8 (apciLenMin + payload.length)

/-- `n <= ACC_CAP`, for a capacity the spec allows: every capacity is at least 261, so 261 bytes always fit (R5, R70). -/
def capFits (cap : Option Nat) (n : Nat) : Bool :=
  decide (n ≤ ft12FrameMax) ||
    match cap with
    | none => true
    | some c => decide (n ≤ c)

end Sys2Proof.Machine
end

