-- ==== Sys2Proof/Syntax.lean ====
section
/-! DEFINITION. The records operations take and return (10_state.md R12, R13), the instructions: one constructor
per row of spec/opcode_table.json, and the form in which the host presents them. -/

namespace Sys2Proof

/-- An FT1.2 frame record (R12). It has no length field: the wire LEN is computed from the data. -/
structure Ft12Frame where
  control : Byte
  address : Word16
  data    : List Byte
  deriving DecidableEq, Repr

/-- An APCI frame record (R13). -/
inductive ApciFrame where
  | i (sendSeq recvSeq : Seq15) (payload : List Byte)
  | s (recvSeq : Seq15)
  | u (code : Word16)
  deriving DecidableEq, Repr

/-- The instructions: the nine operation rows and the ten wire-frame rows of the opcode table (R54, R56).
A wire-frame row stands for bytes of that kind presented to the parse its rule names (log entry 5); `rest` is what
follows the row's leading bytes, the rest of the frame and whatever comes after it. -/
inductive Instr where
  /-- `RESET` (R95). -/
  | reset
  /-- `FT12.ENCODE` (R61). -/
  | ft12Encode (f : Ft12Frame)
  /-- `FT12.TRYPARSE` (R63). -/
  | ft12TryParse (buf : List Byte)
  /-- `FT12.APPEND` (R67). -/
  | ft12Append (bytes : List Byte)
  /-- `APCI.ENC_I` (R81). -/
  | apciEncI (sendSeq recvSeq : Seq15) (payload : List Byte)
  /-- `APCI.ENC_S` (R83). -/
  | apciEncS (recvSeq : Seq15)
  /-- `APCI.ENC_U` (R85). -/
  | apciEncU (code : Word16)
  /-- `APCI.TRYPARSE` (R87). -/
  | apciTryParse (buf : List Byte)
  /-- `OP.RESERVED` (R96): a reserved select, and the operand bytes presented with it, which nothing reads. -/
  | opReserved (op : BitVec 4) (operands : List Byte)
  /-- `FT12.FRAME`: `68 LEN LEN2 68` and the bytes from offset 4 on (R40, R63). -/
  | ft12Frame (len len2 : Byte) (rest : List Byte)
  /-- `APCI.I`: F1 = sendSeq, 0; F2 = recvSeq, spare (R47, R48). -/
  | apciI (len : Byte) (sendSeq recvSeq : Seq15) (spare : BitVec 1) (rest : List Byte)
  /-- `APCI.S`: F1 = high, 01; F2 = recvSeq, spare (R48, R51). -/
  | apciS (len : Byte) (high : BitVec 14) (recvSeq : Seq15) (spare : BitVec 1) (rest : List Byte)
  /-- `APCI.U`: F1 = code, low bits 11, none of the six named codes (R48, R53). -/
  | apciU (len : Byte) (code f2 : Word16) (rest : List Byte)
  /-- `APCI.U.STARTDT_ACT`: F1 = 0x0007 (R49). -/
  | apciUStartdtAct (len : Byte) (f2 : Word16) (rest : List Byte)
  /-- `APCI.U.STARTDT_CON`: F1 = 0x000B (R49). -/
  | apciUStartdtCon (len : Byte) (f2 : Word16) (rest : List Byte)
  /-- `APCI.U.STOPDT_ACT`: F1 = 0x0013 (R49). -/
  | apciUStopdtAct (len : Byte) (f2 : Word16) (rest : List Byte)
  /-- `APCI.U.STOPDT_CON`: F1 = 0x0023 (R49). -/
  | apciUStopdtCon (len : Byte) (f2 : Word16) (rest : List Byte)
  /-- `APCI.U.TESTFR_ACT`: F1 = 0x0043 (R49). -/
  | apciUTestfrAct (len : Byte) (f2 : Word16) (rest : List Byte)
  /-- `APCI.U.TESTFR_CON`: F1 = 0x0083 (R49). -/
  | apciUTestfrCon (len : Byte) (f2 : Word16) (rest : List Byte)
  deriving DecidableEq, Repr

/-- What the host presents: an operation select with its operand bytes (R54), or bytes in the wire format the host
names, since nothing in the bytes tells an FT1.2 frame from an APCI frame (R35). -/
inductive Request where
  | operation (op : BitVec 4) (operands : List Byte)
  | ft12Wire (bytes : List Byte)
  | apciWire (bytes : List Byte)
  deriving DecidableEq, Repr

/-- What reaches the block from outside: a request of the host, or the platform asserting reset (R120). -/
inductive Input where
  | request (r : Request)
  | resetAsserted
  deriving DecidableEq, Repr

/-- Why presented operand bytes are the operands of no operation (log entry 4; the last is R84). -/
inductive DecodeError where
  /-- Fewer operand bytes than the operation's fixed operands take. -/
  | operandsMissing
  /-- Operand bytes after the last operand of an operation that takes no byte sequence. -/
  | operandsLeftOver
  /-- A sequence-number operand of 32768 or more (R84). -/
  | seqTooWide
  deriving DecidableEq, Repr

/-- One row of spec/opcode_table.json: match and mask over the 4-bit select, or over the leading bytes of a frame in
wire order (R56). -/
inductive TableRow where
  | op (pattern mask : BitVec 4)
  | ft12 (pattern mask : List Byte)
  | apci (pattern mask : List Byte)
  deriving DecidableEq, Repr

end Sys2Proof
end

