-- ==== Sys2Proof/Machine/State.lean ====
section
/-! DEFINITION. The state (10_state.md R10, R11, R19), the outcomes of operations (60_exceptions.md R100, R101), and
the reasons a step of the model can stop. -/

namespace Sys2Proof.Machine

/-- Every error cause of R101. -/
inductive Cause where
  | ft12Start1
  | ft12Start2
  | ft12LenDup
  | ft12LenShort
  | ft12Checksum
  | ft12End
  | apciStart
  | apciLenShort
  | encLength
  | encOperand
  | accOverflow
  | opReserved
  deriving DecidableEq, Repr

/-- The class of a cause: the source's FormatError, or the spec's own (R101). -/
inductive CauseClass where
  | formatError
  | spec
  deriving DecidableEq, Repr

/-- What an operation attaches to `OK` (the results column of R54). -/
inductive Payload where
  /-- `OK` of `RESET`. -/
  | done
  /-- `OK(wire)` of an encode operation. -/
  | wire (bytes : List Byte)
  /-- `OK(Ft12Frame)` of `FT12.APPEND`: a delivered frame. -/
  | ft12 (f : Ft12Frame)
  /-- `OK(Ft12Frame, consumed)` of `FT12.TRYPARSE`. -/
  | ft12Parsed (f : Ft12Frame) (consumed : Nat)
  /-- `OK(ApciFrame, consumed)` of `APCI.TRYPARSE`. -/
  | apciParsed (f : ApciFrame) (consumed : Nat)
  deriving DecidableEq, Repr

/-- The three outcomes of R100. An error carries its cause and nothing else (R101). -/
inductive Result where
  | ok (p : Payload)
  | needMore
  | error (c : Cause)
  deriving DecidableEq, Repr

/-- What a parse answers, before it becomes an operation's outcome: a frame and the consumed count, need-more, or an
error (R64, R88). -/
inductive Parse (α : Type) where
  | ok (frame : α) (consumed : Nat)
  | needMore
  | error (c : Cause)
  deriving DecidableEq, Repr

/-- The machine. `acc` is the block's whole state (R10); `pending` and `outcome` are the model's own, the two sides of
the host interface (log entries 1 and 2). -/
structure State where
  /-- `ACC`, index 0 the oldest byte (R11). -/
  acc     : List Byte
  /-- What the host and the platform have issued and the block has not taken, oldest first (R30). -/
  pending : List Input
  /-- The outcome of the operation that ended last, as the host sees it (R100); no operation reads it (R14). -/
  outcome : Option Result
  deriving DecidableEq, Repr

/-- The machine right after reset: `ACC = []` (R19). The other two fields are the model's choice (log entries 1, 2). -/
def State.reset : State := { acc := [], pending := [], outcome := none }

/-- What the block finds at its input (Machine/Fetch.lean). -/
inductive Fetched where
  /-- Nothing has been issued. -/
  | idle
  /-- The platform asserts reset; the state with that input taken. -/
  | resetAsserted (s : State)
  /-- The host has issued an instruction; the state with that request taken. -/
  | issued (i : Instr) (s : State)
  /-- The presented bytes are the operands of no operation. -/
  | rejected (e : DecodeError)
  deriving DecidableEq, Repr

/-- The faults: presented operand bytes that no operation has. The spec's operations take typed operands, so it knows no
such case; the layout of the bytes is the model's (log entry 4). No instruction's meaning raises one. -/
inductive Fault where
  /-- Raised by the step when a request has fewer operand bytes than its operation's fixed operands take. Safe. -/
  | operandsMissing
  /-- Raised by the step when a request has operand bytes after its operation's last operand. Safe. -/
  | operandsLeftOver
  deriving DecidableEq, Repr

/-- The refusals. -/
inductive Refusal where
  /-- An instruction without a meaning; no instruction of this model answers it. Safe. -/
  | notModelled (mnemonic : String)
  /-- Raised by the step when a request presents a sequence number of 32768 or more, which the 15-bit operand type
  cannot hold (R84, U10). Safe. -/
  | seqTooWide
  deriving DecidableEq, Repr

end Sys2Proof.Machine
end

