-- ==== Sys2Proof/Machine/Ops.lean ====
section
/-! DEFINITION. The named operations the meanings share: the two parses, the encoders, the accumulator, ending an
operation with its outcome (which is all there is to taking an exception here, 60_exceptions.md R100, R107), and reset. -/

namespace Sys2Proof.Machine

/-- An operation ends: its outcome goes to the host. Nothing is vectored and nothing saved; an error is an outcome like
the others, and the next operation follows it, so there is no return from one (R100, R107, R108). -/
def State.finish (s : State) (r : Result) : State := { s with outcome := some r }

/-- `ACC <- v` (R6). -/
def State.setAcc (s : State) (v : List Byte) : State := { s with acc := v }

/-- A parse's answer as an operation's outcome, `attach` saying what goes with `OK`. -/
def Parse.toResult {α : Type} (attach : α → Nat → Payload) : Parse α → Result
  | .ok f c => .ok (attach f c)
  | .needMore => .needMore
  | .error c => .error c

/-- The bytes that an FT1.2 frame's LEN counts and its checksum covers: CONTROL, the address, the user data (R61). -/
def ft12Body (f : Ft12Frame) : List Byte := f.control :: (word16Bytes f.address ++ f.data)

/-- `FT12.ENCODE` (R61, R62). -/
def ft12EncodeResult (f : Ft12Frame) : Result :=
  if ft12DataFits f.data then
    let len := ft12LenByte f.data
    .ok (.wire (ft12WireBytes len len (ft12Body f ++ [checksum (ft12Body f), endByte])))
  else .error .encLength

/-- The FT1.2 parse, the tests in exactly the order of R63; `len` is the first LEN byte, which governs the wait (R42). -/
def ft12TryParse (buf : List Byte) : Parse Ft12Frame :=
  let len := (byteAt buf 1).toNat
  if buf.length < 2 then .needMore
  else if buf.length < len + ft12Overhead then .needMore
  else if byteAt buf 0 ≠ startByte then .error .ft12Start1
  else if byteAt buf 3 ≠ startByte then .error .ft12Start2
  else if byteAt buf 2 ≠ byteAt buf 1 then .error .ft12LenDup
  else if len < ft12LenMin then .error .ft12LenShort
  else if byteAt buf (4 + len) ≠ checksum (slice buf 4 (4 + len)) then .error .ft12Checksum
  else if byteAt buf (5 + len) ≠ endByte then .error .ft12End
  else .ok ⟨byteAt buf 4, word16At buf 5, slice buf 7 (4 + len)⟩ (len + ft12Overhead)

/-- The accumulator's append and its one extraction attempt: the content afterwards and the outcome (R67 to R70). -/
def accAppend (cap : Option Nat) (acc bytes : List Byte) : List Byte × Result :=
  if capFits cap (acc.length + bytes.length) then
    match ft12TryParse (acc ++ bytes) with
    | .ok f c => ((acc ++ bytes).drop c, .ok (.ft12 f))
    | .needMore => (acc ++ bytes, .needMore)
    | .error c => (acc ++ bytes, .error c)
  else (acc, .error .accOverflow)

/-- `APCI.ENC_I` (R81, R82). -/
def apciEncIResult (sendSeq recvSeq : Seq15) (payload : List Byte) : Result :=
  if apciPayloadFits payload then
    .ok (.wire (apciWireBytes (apciLenByte payload) (seqWord sendSeq 0#1) (seqWord recvSeq 0#1) payload))
  else .error .encLength

/-- `APCI.ENC_S` (R83). -/
def apciEncSResult (recvSeq : Seq15) : Result :=
  .ok (.wire (apciWireBytes (apciLenByte []) sFrameWord (seqWord recvSeq 0#1) []))

/-- `APCI.ENC_U` (R85, R86). -/
def apciEncUResult (code : Word16) : Result :=
  if isUCode code then .ok (.wire (apciWireBytes (apciLenByte []) code 0#16 [])) else .error .encOperand

/-- The frame of an APCI buffer that has its `LEN + 2` bytes: the type from F1[1:0] alone (R48), the bits and bytes the
type does not use ignored (R51, R53). -/
def apciFrameOf (buf : List Byte) (len : Nat) : ApciFrame :=
  let f1 := word16At buf 2
  let f2 := word16At buf 4
  if f1 &&& 0x1#16 = 0x0#16 then .i (seqOf f1) (seqOf f2) (slice buf 6 (len + apciOverhead))
  else if f1 &&& 0x3#16 = 0x1#16 then .s (seqOf f2)
  else .u f1

/-- The APCI parse, the tests in exactly the order of R87. -/
def apciTryParse (buf : List Byte) : Parse ApciFrame :=
  let len := (byteAt buf 1).toNat
  if buf.length < 2 then .needMore
  else if byteAt buf 0 ≠ startByte then .error .apciStart
  else if len < apciLenMin then .error .apciLenShort
  else if buf.length < len + apciOverhead then .needMore
  else .ok (apciFrameOf buf len) (len + apciOverhead)

/-- `FT12.TRYPARSE` of bytes, as a change of state: the outcome and nothing else (R24, R63). -/
def State.finishFt12Parse (s : State) (buf : List Byte) : State :=
  s.finish ((ft12TryParse buf).toResult .ft12Parsed)

/-- `APCI.TRYPARSE` of bytes, as a change of state: the outcome and nothing else (R24, R87). -/
def State.finishApciParse (s : State) (buf : List Byte) : State :=
  s.finish ((apciTryParse buf).toResult .apciParsed)

/-- Reset as the platform asserts it: `ACC <- []` (R120). No operation ended, so there is no outcome (log entry 2). -/
def assertReset (s : State) : State := { s with acc := [], outcome := none }

end Sys2Proof.Machine
end

