-- ==== Sys2Proof/Machine/Apci.lean ====
section
/-! DEFINITION. The APCI operations (41_apci_codec.md): pure functions of their operands (R80). -/

namespace Sys2Proof.Machine

/-- `APCI.ENC_I` (R81, R82). -/
def execApciEncI (sendSeq recvSeq : Seq15) (payload : List Byte) (s : State) : Host.Outcome State Fault Refusal :=
  .next (s.finish (apciEncIResult sendSeq recvSeq payload))

/-- `APCI.ENC_S` (R83). -/
def execApciEncS (recvSeq : Seq15) (s : State) : Host.Outcome State Fault Refusal :=
  .next (s.finish (apciEncSResult recvSeq))

/-- `APCI.ENC_U` (R85, R86). -/
def execApciEncU (code : Word16) (s : State) : Host.Outcome State Fault Refusal :=
  .next (s.finish (apciEncUResult code))

/-- `APCI.TRYPARSE` (R87). -/
def execApciTryParse (buf : List Byte) (s : State) : Host.Outcome State Fault Refusal :=
  .next (s.finishApciParse buf)

end Sys2Proof.Machine
end

