-- ==== Sys2Proof/Machine/Ft12.lean ====
section
/-! DEFINITION. The FT1.2 operations (40_ft12_framer.md). -/

namespace Sys2Proof.Machine

/-- `FT12.ENCODE` (R61, R62). -/
def execFt12Encode (f : Ft12Frame) (s : State) : Host.Outcome State Fault Refusal :=
  .next (s.finish (ft12EncodeResult f))

/-- `FT12.TRYPARSE` (R63). -/
def execFt12TryParse (buf : List Byte) (s : State) : Host.Outcome State Fault Refusal :=
  .next (s.finishFt12Parse buf)

/-- `FT12.APPEND` (R67). -/
def execFt12Append (bytes : List Byte) (s : State) : Host.Outcome State Fault Refusal :=
  let r := accAppend Config.accCap s.acc bytes
  .next ((s.setAcc r.1).finish r.2)

end Sys2Proof.Machine
end

