-- ==== Sys2Proof/Machine/System.lean ====
section
/-! DEFINITION. The system operations (42_system_ops.md). -/

namespace Sys2Proof.Machine

/-- `RESET`: `ACC <- []`, `OK` (R95). -/
def execReset (s : State) : Host.Outcome State Fault Refusal :=
  .next ((s.setAcc []).finish (.ok .done))

/-- A reserved operation select: `ERROR(OP_RESERVED)`, no state changed, whatever stands beside it (R96). -/
def execOpReserved (_op : BitVec 4) (_operands : List Byte) (s : State) : Host.Outcome State Fault Refusal :=
  .next (s.finish (.error .opReserved))

end Sys2Proof.Machine
end

