-- ==== Sys2Proof/Decode.lean ====
section
/-! DEFINITION. The decoder, total on every request and rejecting by name; the encoder, written from the same tables
of the spec (30_encoding.md R40, R45, R48, R49, R54); the opcode table's rows (R56); and the reading of one table word. -/

namespace Sys2Proof

/-! Operand forms. The spec gives the operands of each operation and no layout for them; this layout is the model's
(log entry 4): 16-bit operands little-endian, sequence numbers as 16-bit fields with bit 15 zero, a byte sequence last. -/

/-- A sequence-number operand; a value of 32768 or more is refused, never reduced (R84). -/
def seqOperand (lo hi : Byte) : Option Seq15 :=
  if (word16 lo hi).toNat < 32768 then some ((word16 lo hi).setWidth 15) else none

/-- The operand bytes of a sequence number. -/
def seqOperandBytes (s : Seq15) : List Byte := word16Bytes (s.setWidth 16)

/-- An operation without operands. -/
def decodeNoOperands (i : Instr) : List Byte → Except DecodeError Instr
  | [] => .ok i
  | _ :: _ => .error .operandsLeftOver

/-- `FT12.ENCODE`: control, address, data (R61). -/
def decodeFt12Encode : List Byte → Except DecodeError Instr
  | control :: lo :: hi :: data => .ok (.ft12Encode ⟨control, word16 lo hi, data⟩)
  | _ => .error .operandsMissing

/-- `APCI.ENC_I`: sendSeq, recvSeq, payload, the operand order of `CreateIFrame` (R55, R81). -/
def decodeApciEncI : List Byte → Except DecodeError Instr
  | s0 :: s1 :: r0 :: r1 :: payload =>
    match seqOperand s0 s1, seqOperand r0 r1 with
    | some s, some r => .ok (.apciEncI s r payload)
    | _, _ => .error .seqTooWide
  | _ => .error .operandsMissing

/-- `APCI.ENC_S`: recvSeq (R83). -/
def decodeApciEncS : List Byte → Except DecodeError Instr
  | [r0, r1] =>
    match seqOperand r0 r1 with
    | some r => .ok (.apciEncS r)
    | none => .error .seqTooWide
  | _ :: _ :: _ :: _ => .error .operandsLeftOver
  | _ => .error .operandsMissing

/-- `APCI.ENC_U`: code (R85). -/
def decodeApciEncU : List Byte → Except DecodeError Instr
  | [c0, c1] => .ok (.apciEncU (word16 c0 c1))
  | _ :: _ :: _ :: _ => .error .operandsLeftOver
  | _ => .error .operandsMissing

/-- The operation a select names (R54). -/
def decodeOperation (op : BitVec 4) (operands : List Byte) : Except DecodeError Instr :=
  if opIsReserved op then .ok (.opReserved op operands)
  else if op = opReset then decodeNoOperands .reset operands
  else if op = opFt12Encode then decodeFt12Encode operands
  else if op = opFt12TryParse then .ok (.ft12TryParse operands)
  else if op = opFt12Append then .ok (.ft12Append operands)
  else if op = opApciEncI then decodeApciEncI operands
  else if op = opApciEncS then decodeApciEncS operands
  else if op = opApciEncU then decodeApciEncU operands
  else .ok (.apciTryParse operands)

/-- Bytes in the FT1.2 format: of the kind `FT12.FRAME` when both start bytes stand where R56's mask tests them;
any other bytes are plain input of the same parse (R52). -/
def decodeFt12Wire (bytes : List Byte) : Instr :=
  match bytes with
  | s1 :: len :: len2 :: s2 :: rest =>
    if s1 = startByte ∧ s2 = startByte then .ft12Frame len len2 rest else .ft12TryParse bytes
  | _ => .ft12TryParse bytes

/-- The kind of an APCI frame by its first control word (R48), a named U code before the generic one (R49, R56). -/
def apciKind (len : Byte) (f1 f2 : Word16) (rest : List Byte) : Instr :=
  if f1 &&& 0x1#16 = 0x0#16 then .apciI len (seqOf f1) (seqOf f2) (f2.setWidth 1) rest
  else if f1 &&& 0x3#16 = 0x1#16 then .apciS len ((f1 >>> 2).setWidth 14) (seqOf f2) (f2.setWidth 1) rest
  else if f1 = codeStartdtAct then .apciUStartdtAct len f2 rest
  else if f1 = codeStartdtCon then .apciUStartdtCon len f2 rest
  else if f1 = codeStopdtAct then .apciUStopdtAct len f2 rest
  else if f1 = codeStopdtCon then .apciUStopdtCon len f2 rest
  else if f1 = codeTestfrAct then .apciUTestfrAct len f2 rest
  else if f1 = codeTestfrCon then .apciUTestfrCon len f2 rest
  else .apciU len f1 f2 rest

/-- Bytes in the APCI format: of one of the APCI kinds when the start byte and the control bytes are present; any other
bytes are plain input of the same parse (R53). -/
def decodeApciWire (bytes : List Byte) : Instr :=
  match bytes with
  | s :: len :: c1 :: c2 :: c3 :: c4 :: rest =>
    if s = startByte then apciKind len (word16 c1 c2) (word16 c3 c4) rest else .apciTryParse bytes
  | _ => .apciTryParse bytes

/-- The decoder: what instruction a request is, or why it is none. -/
def decode : Request → Except DecodeError Instr
  | .operation op operands => decodeOperation op operands
  | .ft12Wire bytes => .ok (decodeFt12Wire bytes)
  | .apciWire bytes => .ok (decodeApciWire bytes)

/-- The first control word of an `APCI.S` row: `high` in bits 15:2, 01 below (R48). -/
def sWord (high : BitVec 14) : Word16 := (high.setWidth 16 <<< 2) ||| 0x1#16

/-- The encoder: the request that presents an instruction. -/
def encode : Instr → Request
  | .reset => .operation opReset []
  | .ft12Encode f => .operation opFt12Encode (f.control :: (word16Bytes f.address ++ f.data))
  | .ft12TryParse buf => .operation opFt12TryParse buf
  | .ft12Append bytes => .operation opFt12Append bytes
  | .apciEncI s r payload => .operation opApciEncI (seqOperandBytes s ++ seqOperandBytes r ++ payload)
  | .apciEncS r => .operation opApciEncS (seqOperandBytes r)
  | .apciEncU code => .operation opApciEncU (word16Bytes code)
  | .apciTryParse buf => .operation opApciTryParse buf
  | .opReserved op operands => .operation op operands
  | .ft12Frame len len2 rest => .ft12Wire (ft12WireBytes len len2 rest)
  | .apciI len s r spare rest => .apciWire (apciWireBytes len (seqWord s 0#1) (seqWord r spare) rest)
  | .apciS len high r spare rest => .apciWire (apciWireBytes len (sWord high) (seqWord r spare) rest)
  | .apciU len code f2 rest => .apciWire (apciWireBytes len code f2 rest)
  | .apciUStartdtAct len f2 rest => .apciWire (apciWireBytes len codeStartdtAct f2 rest)
  | .apciUStartdtCon len f2 rest => .apciWire (apciWireBytes len codeStartdtCon f2 rest)
  | .apciUStopdtAct len f2 rest => .apciWire (apciWireBytes len codeStopdtAct f2 rest)
  | .apciUStopdtCon len f2 rest => .apciWire (apciWireBytes len codeStopdtCon f2 rest)
  | .apciUTestfrAct len f2 rest => .apciWire (apciWireBytes len codeTestfrAct f2 rest)
  | .apciUTestfrCon len f2 rest => .apciWire (apciWireBytes len codeTestfrCon f2 rest)

/-! The opcode table (R56). -/

/-- `(bytes & mask) = match`, byte for byte, over as many leading bytes as the mask has (R56). -/
def matchBytes : (pattern mask bytes : List Byte) → Bool
  | [], [], _ => true
  | p :: ps, m :: ms, b :: bs => b &&& m == p && matchBytes ps ms bs
  | _, _, _ => false

/-- A request is of the kind of a table row. -/
def TableRow.describes : TableRow → Request → Bool
  | .op pattern mask, .operation sel _ => sel &&& mask == pattern
  | .ft12 pattern mask, .ft12Wire bytes => matchBytes pattern mask bytes
  | .apci pattern mask, .apciWire bytes => matchBytes pattern mask bytes
  | _, _ => false

def rowFt12Frame : TableRow := .ft12 [0x68, 0x00, 0x00, 0x68] [0xFF, 0x00, 0x00, 0xFF]
def rowApciI : TableRow := .apci [0x68, 0x00, 0x00, 0x00, 0x00, 0x00] [0xFF, 0x00, 0x01, 0x00, 0x00, 0x00]
def rowApciS : TableRow := .apci [0x68, 0x00, 0x01, 0x00, 0x00, 0x00] [0xFF, 0x00, 0x03, 0x00, 0x00, 0x00]
def rowApciU : TableRow := .apci [0x68, 0x00, 0x03, 0x00, 0x00, 0x00] [0xFF, 0x00, 0x03, 0x00, 0x00, 0x00]

/-- The row of a named U command: CTRL1 and CTRL2 masked fully (R56). -/
def rowNamedU (ctrl1 : Byte) : TableRow :=
  .apci [0x68, 0x00, ctrl1, 0x00, 0x00, 0x00] [0xFF, 0x00, 0xFF, 0xFF, 0x00, 0x00]

/-- Each instruction's row of spec/opcode_table.json, its match and mask as the table writes them. -/
def rowOf : Instr → TableRow
  | .reset => .op 0x0 0xF
  | .ft12Encode _ => .op 0x1 0xF
  | .ft12TryParse _ => .op 0x2 0xF
  | .ft12Append _ => .op 0x3 0xF
  | .apciEncI _ _ _ => .op 0x8 0xF
  | .apciEncS _ => .op 0x9 0xF
  | .apciEncU _ => .op 0xA 0xF
  | .apciTryParse _ => .op 0xB 0xF
  | .opReserved _ _ => .op 0x4 0x4
  | .ft12Frame _ _ _ => rowFt12Frame
  | .apciI _ _ _ _ _ => rowApciI
  | .apciS _ _ _ _ _ => rowApciS
  | .apciU _ _ _ _ => rowApciU
  | .apciUStartdtAct _ _ _ => rowNamedU 0x07
  | .apciUStartdtCon _ _ _ => rowNamedU 0x0B
  | .apciUStopdtAct _ _ _ => rowNamedU 0x13
  | .apciUStopdtCon _ _ _ => rowNamedU 0x23
  | .apciUTestfrAct _ _ _ => rowNamedU 0x43
  | .apciUTestfrCon _ _ _ => rowNamedU 0x83

/-! One word of the opcode table. -/

/-- The operand bytes, all zero, that an operation's fixed operands take (log entry 4). -/
def zeroOperands (op : BitVec 4) : List Byte :=
  if op = opFt12Encode then List.replicate 3 0
  else if op = opApciEncI then List.replicate 4 0
  else if op = opApciEncS ∨ op = opApciEncU then List.replicate 2 0
  else []

/-- The request a table word stands for (log entry 7). A row of fewer than 32 bits is an operation row: the select, then
operands of zeros. A row of 32 to 47 bits is the FT1.2 row and a longer one an APCI row: the row's bytes, then zeros up
to the wire length that the LEN byte gives (R42, R46). -/
def tableRequest (nbits w : Nat) : Request :=
  if nbits < 32 then .operation (BitVec.ofNat 4 w) (zeroOperands (BitVec.ofNat 4 w))
  else
    let len := (BitVec.ofNat 8 (w / 256)).toNat
    if nbits < 48 then .ft12Wire (bytesOfNat 4 w ++ List.replicate (len + ft12Overhead - 4) 0)
    else .apciWire (bytesOfNat 6 w ++ List.replicate (len + apciOverhead - 6) 0)

/-- The instruction the decoder reads from one table word; a word with bits above the 4-bit select is none. -/
def decodeTableWord (nbits w : Nat) : Option Instr :=
  if nbits < 32 ∧ 16 ≤ w then none
  else (decode (tableRequest nbits w)).toOption

end Sys2Proof
end

