-- ==== Sys2Proof/Machine/Wire.lean ====
section
/-! DEFINITION. The wire-frame rows of the opcode table (30_encoding.md R56): bytes of the row's kind presented to the
parse the row's rule names (log entry 5). Each is stateless, like that parse (R24). -/

namespace Sys2Proof.Machine

/-- `FT12.FRAME`: the FT1.2 parse of `68 LEN LEN2 68` and what follows (R40, R63). -/
def execFt12Frame (len len2 : Byte) (rest : List Byte) (s : State) : Host.Outcome State Fault Refusal :=
  .next (s.finishFt12Parse (ft12WireBytes len len2 rest))

/-- `APCI.I`: the APCI parse of a frame whose F1[0] is 0 (R48, R87). -/
def execApciI (len : Byte) (sendSeq recvSeq : Seq15) (spare : BitVec 1) (rest : List Byte) (s : State) :
    Host.Outcome State Fault Refusal :=
  .next (s.finishApciParse (apciWireBytes len (seqWord sendSeq 0#1) (seqWord recvSeq spare) rest))

/-- `APCI.S`: the APCI parse of a frame whose F1[1:0] is 01 (R48, R87). -/
def execApciS (len : Byte) (high : BitVec 14) (recvSeq : Seq15) (spare : BitVec 1) (rest : List Byte) (s : State) :
    Host.Outcome State Fault Refusal :=
  .next (s.finishApciParse (apciWireBytes len (sWord high) (seqWord recvSeq spare) rest))

/-- `APCI.U`: the APCI parse of a frame whose F1 is a U code without a name (R48, R53, R87). -/
def execApciU (len : Byte) (code f2 : Word16) (rest : List Byte) (s : State) : Host.Outcome State Fault Refusal :=
  .next (s.finishApciParse (apciWireBytes len code f2 rest))

/-- `APCI.U.STARTDT_ACT` (R49, R87). -/
def execApciUStartdtAct (len : Byte) (f2 : Word16) (rest : List Byte) (s : State) : Host.Outcome State Fault Refusal :=
  .next (s.finishApciParse (apciWireBytes len codeStartdtAct f2 rest))

/-- `APCI.U.STARTDT_CON` (R49, R87). -/
def execApciUStartdtCon (len : Byte) (f2 : Word16) (rest : List Byte) (s : State) : Host.Outcome State Fault Refusal :=
  .next (s.finishApciParse (apciWireBytes len codeStartdtCon f2 rest))

/-- `APCI.U.STOPDT_ACT` (R49, R87). -/
def execApciUStopdtAct (len : Byte) (f2 : Word16) (rest : List Byte) (s : State) : Host.Outcome State Fault Refusal :=
  .next (s.finishApciParse (apciWireBytes len codeStopdtAct f2 rest))

/-- `APCI.U.STOPDT_CON` (R49, R87). -/
def execApciUStopdtCon (len : Byte) (f2 : Word16) (rest : List Byte) (s : State) : Host.Outcome State Fault Refusal :=
  .next (s.finishApciParse (apciWireBytes len codeStopdtCon f2 rest))

/-- `APCI.U.TESTFR_ACT` (R49, R87). -/
def execApciUTestfrAct (len : Byte) (f2 : Word16) (rest : List Byte) (s : State) : Host.Outcome State Fault Refusal :=
  .next (s.finishApciParse (apciWireBytes len codeTestfrAct f2 rest))

/-- `APCI.U.TESTFR_CON` (R49, R87). -/
def execApciUTestfrCon (len : Byte) (f2 : Word16) (rest : List Byte) (s : State) : Host.Outcome State Fault Refusal :=
  .next (s.finishApciParse (apciWireBytes len codeTestfrCon f2 rest))

end Sys2Proof.Machine
end

