-- ==== Sys2Proof/Machine/Dispatch.lean ====
section
/-! DEFINITION. One arm per instruction, each one call of its meaning. -/

namespace Sys2Proof.Machine

def exec (i : Instr) (s : State) : Host.Outcome State Fault Refusal :=
  match i with
  | .reset => Sys2Proof.Machine.execReset s
  | .ft12Encode f => Sys2Proof.Machine.execFt12Encode f s
  | .ft12TryParse buf => Sys2Proof.Machine.execFt12TryParse buf s
  | .ft12Append bytes => Sys2Proof.Machine.execFt12Append bytes s
  | .apciEncI sendSeq recvSeq payload => Sys2Proof.Machine.execApciEncI sendSeq recvSeq payload s
  | .apciEncS recvSeq => Sys2Proof.Machine.execApciEncS recvSeq s
  | .apciEncU code => Sys2Proof.Machine.execApciEncU code s
  | .apciTryParse buf => Sys2Proof.Machine.execApciTryParse buf s
  | .opReserved op operands => Sys2Proof.Machine.execOpReserved op operands s
  | .ft12Frame len len2 rest => Sys2Proof.Machine.execFt12Frame len len2 rest s
  | .apciI len sendSeq recvSeq spare rest => Sys2Proof.Machine.execApciI len sendSeq recvSeq spare rest s
  | .apciS len high recvSeq spare rest => Sys2Proof.Machine.execApciS len high recvSeq spare rest s
  | .apciU len code f2 rest => Sys2Proof.Machine.execApciU len code f2 rest s
  | .apciUStartdtAct len f2 rest => Sys2Proof.Machine.execApciUStartdtAct len f2 rest s
  | .apciUStartdtCon len f2 rest => Sys2Proof.Machine.execApciUStartdtCon len f2 rest s
  | .apciUStopdtAct len f2 rest => Sys2Proof.Machine.execApciUStopdtAct len f2 rest s
  | .apciUStopdtCon len f2 rest => Sys2Proof.Machine.execApciUStopdtCon len f2 rest s
  | .apciUTestfrAct len f2 rest => Sys2Proof.Machine.execApciUTestfrAct len f2 rest s
  | .apciUTestfrCon len f2 rest => Sys2Proof.Machine.execApciUTestfrCon len f2 rest s

end Sys2Proof.Machine
end

