-- ==== Sys2Proof/Machine/Fetch.lean ====
section
/-! DEFINITION. How the block takes its next input: the host issues operations one at a time and the block runs them in
that order (20_memory.md R30); it fetches nothing (10_state.md R16). -/

namespace Sys2Proof.Machine

/-- The oldest pending input, decoded, and the state with that input taken. -/
def fetch (s : State) : Fetched :=
  match s.pending with
  | [] => .idle
  | .resetAsserted :: rest => .resetAsserted { s with pending := rest }
  | .request r :: rest =>
    match decode r with
    | .ok i => .issued i { s with pending := rest }
    | .error e => .rejected e

/-- How the model stops on operand bytes that are no operation's operands (log entry 4; R84 for the last). -/
def rejectRequest : DecodeError → Host.Outcome State Fault Refusal
  | .operandsMissing => .fault .operandsMissing
  | .operandsLeftOver => .fault .operandsLeftOver
  | .seqTooWide => .refused .seqTooWide

/-- A request put before everything pending. -/
def State.present (s : State) (r : Request) : State := { s with pending := .request r :: s.pending }

end Sys2Proof.Machine
end

