-- ==== Sys2Proof/Machine/Step.lean ====
section
/-! DEFINITION. One step: the block takes its oldest pending input and runs it to its end (20_memory.md R30,
70_reset_and_hazards.md R131). With nothing issued it does nothing (60_exceptions.md R110). -/

namespace Sys2Proof.Machine

/-- One step of the machine. -/
def step (s : State) : Host.Outcome State Fault Refusal :=
  match Sys2Proof.Machine.fetch s with
  | .idle => .next s
  | .resetAsserted t => .next (Sys2Proof.Machine.assertReset t)
  | .issued i t => Sys2Proof.Machine.exec i t
  | .rejected e => Sys2Proof.Machine.rejectRequest e

/-- The state in which the host has issued the instruction of one opcode-table word as the next one to run
(log entry 7). -/
def State.withFetchWord (s : State) (nbits w : Nat) : State :=
  s.present (Sys2Proof.tableRequest nbits w)

end Sys2Proof.Machine
end

