-- ==== Sys2Proof/Machine/Flags.lean ====
section
/-! DEFINITION. The block has no stored flags (10_state.md R14). What a host reads instead is the outcome, whose codes
and classes 60_exceptions.md R100 to R102 give. -/

namespace Sys2Proof.Machine

/-- The outcome codes of R100. -/
def Result.code : Result → Nat
  | .ok _ => 0
  | .needMore => 1
  | .error _ => 2

/-- The 8-bit cause codes of R101. -/
def Cause.code : Cause → Byte
  | .ft12Start1 => 0x01
  | .ft12Start2 => 0x02
  | .ft12LenDup => 0x03
  | .ft12LenShort => 0x04
  | .ft12Checksum => 0x05
  | .ft12End => 0x06
  | .apciStart => 0x11
  | .apciLenShort => 0x12
  | .encLength => 0x21
  | .encOperand => 0x22
  | .accOverflow => 0x31
  | .opReserved => 0x41

/-- The class of each cause (R101, R102, R104). -/
def Cause.cls : Cause → CauseClass
  | .ft12Start1 => .formatError
  | .ft12Start2 => .formatError
  | .ft12LenDup => .formatError
  | .ft12LenShort => .formatError
  | .ft12Checksum => .formatError
  | .ft12End => .formatError
  | .apciStart => .formatError
  | .apciLenShort => .formatError
  | .encLength => .spec
  | .encOperand => .spec
  | .accOverflow => .spec
  | .opReserved => .spec

end Sys2Proof.Machine
end

