-- ==== Sys2Proof/Safety.lean ====
section
/-! DEFINITION. The terms in which claims are made: the wire images the formats prescribe, the accumulator within its
capacity, legal outcomes, the persistent-error condition, which instruction may raise which cause, the host's loop. -/

namespace Sys2Proof

/-! The wire images, written from the tables of 30_encoding.md R40, R41, R45 and R50 and not from the encoders. -/

/-- The sum of unsigned bytes modulo 256 (R41). -/
def sumMod256 (bs : List Byte) : Byte := BitVec.ofNat 8 ((bs.map BitVec.toNat).sum % 256)

/-- The bytes that LEN counts: CONTROL, ADDR_LO, ADDR_HI, user data (R40). -/
def ft12Counted (f : Ft12Frame) : List Byte :=
  [f.control, BitVec.ofNat 8 (f.address.toNat % 256), BitVec.ofNat 8 (f.address.toNat / 256)] ++ f.data

/-- The wire bytes of an FT1.2 frame (R40, R41). -/
def ft12Image (f : Ft12Frame) : List Byte :=
  [0x68, BitVec.ofNat 8 (3 + f.data.length), BitVec.ofNat 8 (3 + f.data.length), 0x68] ++ ft12Counted f
    ++ [sumMod256 (ft12Counted f), 0x16]

/-- The two bytes of a control word, low byte first (R21, R45). -/
def wordImage (v : Nat) : List Byte := [BitVec.ofNat 8 (v % 256), BitVec.ofNat 8 (v / 256)]

/-- The wire bytes an encoder writes for an APCI frame (R45, R50). -/
def apciImage : ApciFrame → List Byte
  | .i sendSeq recvSeq payload =>
    [0x68, BitVec.ofNat 8 (4 + payload.length)] ++ wordImage (2 * sendSeq.toNat) ++ wordImage (2 * recvSeq.toNat) ++ payload
  | .s recvSeq => [0x68, 0x04, 0x01, 0x00] ++ wordImage (2 * recvSeq.toNat)
  | .u code => [0x68, 0x04] ++ wordImage code.toNat ++ [0x00, 0x00]

/-- The APCI frames an encoder writes: a payload of at most 251 bytes, a code with low bits 11 (R82, R86). -/
def ApciFrame.encodable : ApciFrame → Bool
  | .i _ _ payload => decide (payload.length ≤ 251)
  | .s _ => true
  | .u code => decide (code.toNat % 4 = 3)

/-- The operations that write `ACC` (R24): all others are stateless. -/
def Instr.writesAcc : Instr → Bool
  | .reset => true
  | .ft12Append _ => true
  | _ => false

/-- The two ways out of the persistent-error condition: the operation `RESET` and reset (R108). -/
def Input.isReset : Input → Bool
  | .resetAsserted => true
  | .request r => decide (decode r = .ok .reset)

namespace Machine

/-- `len(ACC) <= ACC_CAP` (10_state.md R11). -/
def State.AccWithinCap (s : State) : Prop := ∀ c, Config.accCap = some c → s.acc.length ≤ c

/-- An outcome that the formats allow: data and payload lengths, wire lengths and consumed counts within R5, and a parsed
U code with low bits 11 (R12, R13, R42, R46). -/
def Result.legal : Result → Bool
  | .ok .done => true
  | .ok (.wire w) => decide (6 ≤ w.length ∧ w.length ≤ 261)
  | .ok (.ft12 f) => decide (f.data.length ≤ 252)
  | .ok (.ft12Parsed f c) => decide (f.data.length ≤ 252 ∧ c = f.data.length + 9)
  | .ok (.apciParsed (.i _ _ payload) c) => decide (payload.length ≤ 251 ∧ c = payload.length + 6)
  | .ok (.apciParsed (.s _) c) => decide (6 ≤ c ∧ c ≤ 257)
  | .ok (.apciParsed (.u code) c) => decide (code.toNat % 4 = 3 ∧ 6 ≤ c ∧ c ≤ 257)
  | .needMore => true
  | .error _ => true

/-- The host sees no illegal outcome. -/
def State.OutcomeLegal (s : State) : Prop := ∀ r, s.outcome = some r → r.legal = true

/-- The outcome delivers a frame extracted from the accumulator (R67). -/
def Result.delivers : Result → Bool
  | .ok (.ft12 _) => true
  | _ => false

/-- The host does not see a frame extracted from the accumulator. -/
def State.NothingDelivered (s : State) : Prop := ∀ r, s.outcome = some r → r.delivers = false

/-- The persistent-error condition of the accumulator: its leading bytes fail with this cause (R68, R108). -/
def State.StuckOn (s : State) (c : Cause) : Prop := ft12TryParse s.acc = .error c

/-- The state `s` after an operation that answered `r` and wrote nothing. -/
def State.answering (s : State) (r : Result) : State := { s with outcome := some r }

/-- The six causes of the FT1.2 parse (R101). -/
def Cause.ofFt12Parse : Cause → Bool
  | .ft12Start1 | .ft12Start2 | .ft12LenDup | .ft12LenShort | .ft12Checksum | .ft12End => true
  | _ => false

/-- Which causes an instruction may raise: the 'Raised by' column of R101, and for a wire-frame row those of its parse
that its fixed bytes leave possible. -/
def mayRaise : Instr → Cause → Bool
  | .ft12Encode _, c => c == .encLength
  | .ft12TryParse _, c => c.ofFt12Parse
  | .ft12Append _, c => c.ofFt12Parse || c == .accOverflow
  | .apciEncI _ _ _, c => c == .encLength
  | .apciEncU _, c => c == .encOperand
  | .apciTryParse _, c => c == .apciStart || c == .apciLenShort
  | .opReserved _ _, c => c == .opReserved
  | .ft12Frame _ _ _, c => c.ofFt12Parse && c != .ft12Start1 && c != .ft12Start2
  | .apciI _ _ _ _ _, c => c == .apciLenShort
  | .apciS _ _ _ _ _, c => c == .apciLenShort
  | .apciU _ _ _ _, c => c == .apciLenShort
  | .apciUStartdtAct _ _ _, c => c == .apciLenShort
  | .apciUStartdtCon _ _ _, c => c == .apciLenShort
  | .apciUStopdtAct _ _ _, c => c == .apciLenShort
  | .apciUStopdtCon _ _ _, c => c == .apciLenShort
  | .apciUTestfrAct _ _ _, c => c == .apciLenShort
  | .apciUTestfrCon _ _ _, c => c == .apciLenShort
  | .reset, _ => false
  | .apciEncS _, _ => false

/-- The HOST's extraction loop over its own buffer, at most `fuel` calls: the frames, and the bytes it keeps
(41_apci_codec.md R91, 70_reset_and_hazards.md R127). After a format error R127 says only that the host's policy applies;
that the loop ends there and keeps every byte is a DESIGN CHOICE of the model (log entry 9). -/
def hostApciLoop : Nat → List Byte → List ApciFrame × List Byte
  | 0, hb => ([], hb)
  | fuel + 1, hb =>
    match apciTryParse hb with
    | .ok f c => (f :: (hostApciLoop fuel (hb.drop c)).1, (hostApciLoop fuel (hb.drop c)).2)
    | .needMore => ([], hb)
    | .error _ => ([], hb)

end Machine

end Sys2Proof
end

