-- ==== Sys2Proof/WellFormed.lean ====
section
/-! DEFINITION. Which terms of `Instr` stand for a row of the opcode table. Operand values that an operation answers
with an error (over-long data, a code that is no U code) are well formed: the operation runs and reports it. -/

namespace Sys2Proof

/-- The terms that a presented request can decode to: `opReserved` carries a reserved select (R54), and the generic
`apciU` carries a U code that none of the six named rows stands for (R49, R56). -/
def Instr.wellFormed : Instr → Bool
  | .reset => true
  | .ft12Encode _ => true
  | .ft12TryParse _ => true
  | .ft12Append _ => true
  | .apciEncI _ _ _ => true
  | .apciEncS _ => true
  | .apciEncU _ => true
  | .apciTryParse _ => true
  | .opReserved op _ => opIsReserved op
  | .ft12Frame _ _ _ => true
  | .apciI _ _ _ _ _ => true
  | .apciS _ _ _ _ _ => true
  | .apciU _ code _ _ => isUCode code && !isNamedCode code
  | .apciUStartdtAct _ _ _ => true
  | .apciUStartdtCon _ _ _ => true
  | .apciUStopdtAct _ _ _ => true
  | .apciUStopdtCon _ _ _ => true
  | .apciUTestfrAct _ _ _ => true
  | .apciUTestfrCon _ _ _ => true

end Sys2Proof
end

