-- ==== Sys2Proof/Certificates/Slice0/Obligations.lean ====
section
/-! DEFINITION. The statements for the provers. Each says which rule of spec/ it formalises. -/

open Sys2Proof Sys2Proof.Machine

/-! ## Reset and the step -/

/-- R19, R120: `ACC` is empty after reset; reset asserted by the platform empties `ACC`, whatever it held, as the operation
RESET does. That the inputs behind it stay pending, and that the two are compared on `ACC` and `pending` alone since their
outcomes differ, is the model's choice (log entries 1 and 2). -/
def Obligations.ResetEmptiesAcc : Prop :=
  State.reset.acc = [] ∧
  ∀ (s : State) (rest : List Input), s.pending = .resetAsserted :: rest →
    ∃ t u, step s = .next t ∧ exec .reset { s with pending := rest } = .next u ∧
      t.acc = [] ∧ t.acc = u.acc ∧ t.pending = rest ∧ u.pending = rest

/-- A step runs exactly the instruction that the oldest pending request decodes to, on the state with that request taken;
with nothing pending the block does nothing (R30, R110; the pending list is the model's own, log entry 1). -/
def Obligations.StepRunsDecodedRequest : Prop :=
  (∀ (s : State) (r : Request) (rest : List Input) (i : Instr),
    s.pending = .request r :: rest → decode r = .ok i → step s = exec i { s with pending := rest }) ∧
  (∀ s : State, s.pending = [] → step s = .next s)

/-- Inputs are taken one at a time, oldest first, and a step takes no other (R30, R33; log entry 1). -/
def Obligations.StepTakesInputsInOrder : Prop :=
  ∀ s t : State, step s = .next t → t.pending = s.pending.tail

/-- A step stops only on operand bytes that are no operation's operands, each kind by its own name (log entry 4; the last
is R84): nothing else stops the block (R102, R108). -/
def Obligations.StepStopsOnlyOnRejectedOperands : Prop :=
  ∀ s : State, (∃ t, step s = .next t) ∨
    ∃ r rest e, s.pending = .request r :: rest ∧ decode r = .error e ∧
      ((e = .operandsMissing ∧ step s = .fault .operandsMissing) ∨
        (e = .operandsLeftOver ∧ step s = .fault .operandsLeftOver) ∨
        (e = .seqTooWide ∧ step s = .refused .seqTooWide))

/-- R100, with R112: every instruction, in every state, ends with an outcome; of the rest of the state only `ACC` may
change. -/
def Obligations.EveryInstructionEndsWithAnOutcome : Prop :=
  ∀ (i : Instr) (s : State), ∃ (acc : List Byte) (r : Result),
    exec i s = .next { s with acc := acc, outcome := some r }

/-- R10, R24: every operation but RESET and FT12.APPEND is a pure function of its operands: one outcome, the same in every
state, and nothing else of the state changed. The same of the ten wire-frame rows is the model's choice: each is run as its
parse (log entry 5). -/
def Obligations.StatelessInstructionsArePure : Prop :=
  ∀ i : Instr, i.writesAcc = false → ∃ r : Result, ∀ s : State, exec i s = .next (s.answering r)

/-- R29: `ACC` is written in three ways only: append at the tail, removal of the consumed bytes of a successful parse from
the head, and emptying by RESET. FT12.APPEND leaves it alone exactly when it overflows, drops bytes exactly when it
delivers the frame parsed from them, and otherwise keeps every byte (R67, R70). -/
def Obligations.AccWrittenInThreeWaysOnly : Prop :=
  ∀ (i : Instr) (s t : State), exec i s = .next t →
    (i.writesAcc = false ∧ t.acc = s.acc) ∨ (i = .reset ∧ t.acc = []) ∨
      ∃ bytes, i = .ft12Append bytes ∧
        ((∃ cap, Config.accCap = some cap ∧ cap < s.acc.length + bytes.length ∧
            t.outcome = some (.error .accOverflow) ∧ t.acc = s.acc) ∨
          ((∀ cap, Config.accCap = some cap → s.acc.length + bytes.length ≤ cap) ∧
            ((∃ f c, ft12TryParse (s.acc ++ bytes) = .ok f c ∧ t.outcome = some (.ok (.ft12 f)) ∧
                t.acc = (s.acc ++ bytes).drop c) ∨
              (ft12TryParse (s.acc ++ bytes) = .needMore ∧ t.outcome = some .needMore ∧ t.acc = s.acc ++ bytes) ∨
              (∃ c, ft12TryParse (s.acc ++ bytes) = .error c ∧ t.outcome = some (.error c) ∧
                t.acc = s.acc ++ bytes))))

/-- R11: no step takes `ACC` beyond its capacity, from any state within it. -/
def Obligations.StepKeepsAccWithinCapacity : Prop :=
  ∀ s t : State, s.AccWithinCap → step s = .next t → t.AccWithinCap

/-- R5, R12, R13, R42, R46: every outcome a step leaves has data, payload, wire and consumed lengths within the formats'
bounds, and a parsed U code has low bits 11 (the field that keeps the outcome is the model's own, log entry 2). -/
def Obligations.StepKeepsOutcomeLegal : Prop :=
  ∀ s t : State, s.OutcomeLegal → step s = .next t → t.OutcomeLegal

/-- The state after reset meets both invariants. Its outcome being absent is the model's choice (log entry 2). -/
def Obligations.ResetMeetsInvariants : Prop :=
  State.reset.AccWithinCap ∧ State.reset.OutcomeLegal

/-! ## Encoding of the instructions -/

/-- Words written out from the operation selects (R54), the wire layouts (R40, R45) and the named codes (R49). The layout
of the operand bytes is the model's (log entry 4). -/
def Obligations.SpecWordsDecode : Prop :=
  decode (.operation 0b0000#4 []) = .ok .reset ∧
  decode (.operation 0b0001#4 [0x53, 0x01, 0x00, 0x64, 0x01]) = .ok (.ft12Encode ⟨0x53, 0x0001, [0x64, 0x01]⟩) ∧
  decode (.operation 0b1001#4 [0x0A, 0x00]) = .ok (.apciEncS 10) ∧
  decode (.operation 0b1101#4 []) = .ok (.opReserved 0xD []) ∧
  decode (.ft12Wire [0x68, 0x03, 0x03, 0x68, 0x49, 0x34, 0x12, 0x8F, 0x16]) =
    .ok (.ft12Frame 0x03 0x03 [0x49, 0x34, 0x12, 0x8F, 0x16]) ∧
  decode (.apciWire [0x68, 0x07, 0x0A, 0x00, 0x14, 0x00, 0x01, 0x02, 0x03]) =
    .ok (.apciI 0x07 5 10 0 [0x01, 0x02, 0x03]) ∧
  decode (.apciWire [0x68, 0x04, 0x05, 0x80, 0x14, 0x00]) = .ok (.apciS 0x04 0x2001 10 0 []) ∧
  decode (.apciWire [0x68, 0x04, 0x83, 0x00, 0x00, 0x00]) = .ok (.apciUTestfrCon 0x04 0x0000 [])

/-- Decoding an encoded well-formed instruction gives it back, every operand at every value. -/
def Obligations.DecodeOfEncode : Prop :=
  ∀ i : Instr, i.wellFormed = true → decode (encode i) = .ok i

/-- What decodes is well formed, and encodes to the request it came from, but for bytes on a wire that no row of the table
describes: they are the plain parse of that wire's format (log entry 5; the layout of operand bytes is log entry 4). -/
def Obligations.DecodedIsWellFormedAndEncodesBack : Prop :=
  ∀ (r : Request) (i : Instr), decode r = .ok i → i.wellFormed = true ∧
    (encode i = r ∨
      (((∃ bs, r = .ft12Wire bs ∧ i = .ft12TryParse bs) ∨ (∃ bs, r = .apciWire bs ∧ i = .apciTryParse bs)) ∧
        ∀ j : Instr, (rowOf j).describes r = false))

/-- R54, R56: an operation decodes only to the instruction whose row of the opcode table describes it, and any other
instruction whose row describes it is of the same operation row. -/
def Obligations.OperationsDecodeByTheirRow : Prop :=
  ∀ (op : BitVec 4) (operands : List Byte) (i : Instr), decode (.operation op operands) = .ok i →
    (rowOf i).describes (.operation op operands) = true ∧
    ∀ j : Instr, (rowOf j).describes (.operation op operands) = true → rowOf j = rowOf i

/-- R48, R49, R56: bytes on a wire decode to a wire-frame row exactly when its mask and match describe them. That a named U
row goes before the generic one, which describes its bytes too, and that bytes no row describes are plain input of the
parse, is the model's choice (log entry 5). -/
def Obligations.WireBytesDecodeByTheirRow : Prop :=
  (∀ (bs : List Byte) (i : Instr), decode (.ft12Wire bs) = .ok i →
    (i = .ft12TryParse bs ∨ (rowOf i).describes (.ft12Wire bs) = true) ∧
    ∀ j : Instr, (rowOf j).describes (.ft12Wire bs) = true → rowOf j = rowOf i) ∧
  (∀ (bs : List Byte) (i : Instr), decode (.apciWire bs) = .ok i →
    (i = .apciTryParse bs ∨ (rowOf i).describes (.apciWire bs) = true) ∧
    ∀ j : Instr, (rowOf j).describes (.apciWire bs) = true → rowOf j = rowOf i ∨
      (rowOf j = rowApciU ∧ rowOf i ∈ [rowNamedU 0x07, rowNamedU 0x0B, rowNamedU 0x13, rowNamedU 0x23, rowNamedU 0x43,
        rowNamedU 0x83]))

/-- Any bytes on a wire, of whatever kind, are run as the parse of that wire's format on those bytes (R35, R52, R53; that a
wire-frame row is run so is the model's choice, log entry 5). -/
def Obligations.WireBytesRunTheirParse : Prop :=
  ∀ (s : State) (bs : List Byte) (rest : List Input),
    (s.pending = .request (.ft12Wire bs) :: rest → step s = exec (.ft12TryParse bs) { s with pending := rest }) ∧
    (s.pending = .request (.apciWire bs) :: rest → step s = exec (.apciTryParse bs) { s with pending := rest })

/-- R84: a sequence-number operand of 32768 or more is refused, in either operand of APCI.ENC_I and in APCI.ENC_S; a
smaller one is the operand, unchanged. The two operand bytes are the model's layout (log entry 4). -/
def Obligations.WideSequenceOperandsRefused : Prop :=
  (∀ (s : State) (rest : List Input) (lo hi : Byte), s.pending = .request (.operation 0x9 [lo, hi]) :: rest →
    (32768 ≤ lo.toNat + 256 * hi.toNat → step s = .refused .seqTooWide) ∧
    (∀ r : Seq15, r.toNat = lo.toNat + 256 * hi.toNat → step s = exec (.apciEncS r) { s with pending := rest })) ∧
  (∀ (s : State) (rest : List Input) (s0 s1 r0 r1 : Byte) (payload : List Byte),
    s.pending = .request (.operation 0x8 (s0 :: s1 :: r0 :: r1 :: payload)) :: rest →
    (32768 ≤ s0.toNat + 256 * s1.toNat ∨ 32768 ≤ r0.toNat + 256 * r1.toNat → step s = .refused .seqTooWide) ∧
    (∀ q r : Seq15, q.toNat = s0.toNat + 256 * s1.toNat → r.toNat = r0.toNat + 256 * r1.toNat →
      step s = exec (.apciEncI q r payload) { s with pending := rest }))

/-! ## System operations and outcomes -/

/-- R95: RESET cannot fail; it empties `ACC`, answers OK, and changes nothing else, in any condition of `ACC`. -/
def Obligations.ResetOperationEmptiesAcc : Prop :=
  ∀ s : State, exec .reset s = .next { s with acc := [], outcome := some (.ok .done) }

/-- R96: every reserved operation select answers OP_RESERVED and changes no state. -/
def Obligations.ReservedSelectsAnswerOpReserved : Prop :=
  ∀ (op : BitVec 4) (operands : List Byte) (s : State) (rest : List Input),
    exec (.opReserved op operands) s = .next (s.answering (.error .opReserved)) ∧
    ((4 ≤ op.toNat ∧ op.toNat ≤ 7) ∨ 12 ≤ op.toNat → s.pending = .request (.operation op operands) :: rest →
      step s = .next { s with pending := rest, outcome := some (.error .opReserved) })

/-- R100, R101: the outcome codes, the cause codes, and that a cause code tells its cause. -/
def Obligations.OutcomeAndCauseCodes : Prop :=
  (∀ p : Payload, (Result.ok p).code = 0) ∧ Result.needMore.code = 1 ∧ (∀ c : Cause, (Result.error c).code = 2) ∧
  Cause.ft12Start1.code = 0x01 ∧ Cause.ft12Start2.code = 0x02 ∧ Cause.ft12LenDup.code = 0x03 ∧
  Cause.ft12LenShort.code = 0x04 ∧ Cause.ft12Checksum.code = 0x05 ∧ Cause.ft12End.code = 0x06 ∧
  Cause.apciStart.code = 0x11 ∧ Cause.apciLenShort.code = 0x12 ∧ Cause.encLength.code = 0x21 ∧
  Cause.encOperand.code = 0x22 ∧ Cause.accOverflow.code = 0x31 ∧ Cause.opReserved.code = 0x41 ∧
  ∀ a b : Cause, a.code = b.code → a = b

/-- R101: a cause is reported only by the instructions of its 'Raised by' column (for a wire-frame row, by its parse: that
it is run so is the model's choice, log entry 5). -/
def Obligations.CausesComeFromTheirOperations : Prop :=
  ∀ (i : Instr) (s t : State) (c : Cause), exec i s = .next t → t.outcome = some (.error c) → mayRaise i c = true

/-- R104, R107: an error of the spec's own class leaves the whole state but the outcome as it was. -/
def Obligations.SpecErrorsChangeNothing : Prop :=
  ∀ (i : Instr) (s t : State) (c : Cause), exec i s = .next t → t.outcome = some (.error c) → c.cls = .spec →
    t = s.answering (.error c)

/-! ## FT1.2: encode and parse -/

/-- R61, R62: FT12.ENCODE answers the wire bytes of R40 for data of at most 252 bytes, ENC_LENGTH for longer data, and
writes no state. -/
def Obligations.Ft12EncodeWritesTheFrame : Prop :=
  ∀ (f : Ft12Frame) (s : State),
    (f.data.length ≤ 252 → exec (.ft12Encode f) s = .next (s.answering (.ok (.wire (ft12Image f))))) ∧
    (252 < f.data.length → exec (.ft12Encode f) s = .next (s.answering (.error .encLength)))

/-- R41: in every frame FT12.ENCODE writes, CHECKSUM is the sum of exactly the LEN counted bytes modulo 256, which an
8-bit accumulator that discards carries also gives. -/
def Obligations.ChecksumIsTheSumOfTheCountedBytes : Prop :=
  ∀ (f : Ft12Frame) (s t : State) (w : List Byte), exec (.ft12Encode f) s = .next t →
    t.outcome = some (.ok (.wire w)) →
    (byteAt w (4 + (byteAt w 1).toNat)).toNat =
      ((slice w 4 (4 + (byteAt w 1).toNat)).map BitVec.toNat).sum % 256 ∧
    byteAt w (4 + (byteAt w 1).toNat) = (slice w 4 (4 + (byteAt w 1).toNat)).foldl (· + ·) 0 ∧
    slice w 4 (4 + (byteAt w 1).toNat) = ft12Counted f

/-- R42, R5: an encoded FT1.2 frame is LEN + 6 bytes long, 9 to 261, and LEN counts 3 bytes more than the user data. -/
def Obligations.Ft12WireLength : Prop :=
  ∀ (f : Ft12Frame) (s t : State) (w : List Byte), exec (.ft12Encode f) s = .next t →
    t.outcome = some (.ok (.wire w)) →
    w.length = (byteAt w 1).toNat + 6 ∧ (byteAt w 1).toNat = 3 + f.data.length ∧ 9 ≤ w.length ∧ w.length ≤ 261

/-- R63, R105: FT12.TRYPARSE answers exactly one of its outcomes, each exactly when the tests before it passed and its own
failed, in the order of R63; on OK the fields and the consumed count are those of lines 11 to 14; no state is written. -/
def Obligations.Ft12ParseDecidesInOrder : Prop :=
  ∀ (buf : List Byte) (s : State), ∃ r : Result,
    exec (.ft12TryParse buf) s = .next (s.answering r) ∧
    (let len := (byteAt buf 1).toNat
     let present := 2 ≤ buf.length ∧ len + 6 ≤ buf.length
     let start1 := byteAt buf 0 = 0x68
     let start2 := byteAt buf 3 = 0x68
     let dup := byteAt buf 2 = byteAt buf 1
     let long := 3 ≤ len
     let sum := (byteAt buf (4 + len)).toNat = ((slice buf 4 (4 + len)).map BitVec.toNat).sum % 256
     let stop := byteAt buf (5 + len) = 0x16
     (r = .needMore ↔ ¬ present) ∧
     (r = .error .ft12Start1 ↔ present ∧ ¬ start1) ∧
     (r = .error .ft12Start2 ↔ present ∧ start1 ∧ ¬ start2) ∧
     (r = .error .ft12LenDup ↔ present ∧ start1 ∧ start2 ∧ ¬ dup) ∧
     (r = .error .ft12LenShort ↔ present ∧ start1 ∧ start2 ∧ dup ∧ ¬ long) ∧
     (r = .error .ft12Checksum ↔ present ∧ start1 ∧ start2 ∧ dup ∧ long ∧ ¬ sum) ∧
     (r = .error .ft12End ↔ present ∧ start1 ∧ start2 ∧ dup ∧ long ∧ sum ∧ ¬ stop) ∧
     (∀ f c, r = .ok (.ft12Parsed f c) ↔ present ∧ start1 ∧ start2 ∧ dup ∧ long ∧ sum ∧ stop ∧
       f.control = byteAt buf 4 ∧ f.address.toNat = (byteAt buf 5).toNat + 256 * (byteAt buf 6).toNat ∧
       f.data = slice buf 7 (4 + len) ∧ c = len + 6))

/-- R65: the corner cases of FT12.TRYPARSE, row by row of its table. -/
def Obligations.Ft12ParseCornerCases : Prop :=
  ∀ s : State,
    exec (.ft12TryParse []) s = .next (s.answering .needMore) ∧
    exec (.ft12TryParse [0x68]) s = .next (s.answering .needMore) ∧
    exec (.ft12TryParse [0x00]) s = .next (s.answering .needMore) ∧
    exec (.ft12TryParse [0x00, 0x00, 0x00, 0x00, 0x00]) s = .next (s.answering .needMore) ∧
    exec (.ft12TryParse [0x00, 0x00, 0x00, 0x00, 0x00, 0x00]) s = .next (s.answering (.error .ft12Start1)) ∧
    exec (.ft12TryParse [0x68, 0x00, 0x00, 0x68, 0x00, 0x16]) s = .next (s.answering (.error .ft12LenShort)) ∧
    exec (.ft12TryParse [0x68, 0x02, 0x02, 0x68, 0x01, 0x02, 0x03, 0x16]) s =
      .next (s.answering (.error .ft12LenShort)) ∧
    exec (.ft12TryParse [0x68, 0x03, 0x03, 0x68, 0x49, 0x34, 0x12, 0x8F, 0x16]) s =
      .next (s.answering (.ok (.ft12Parsed ⟨0x49, 0x1234, []⟩ 9))) ∧
    exec (.ft12TryParse [0x68, 0x03, 0x03, 0x68, 0x49, 0x34, 0x12, 0x8F, 0x16, 0x68]) s =
      .next (s.answering (.ok (.ft12Parsed ⟨0x49, 0x1234, []⟩ 9))) ∧
    exec (.ft12TryParse [0x68, 0x03, 0x04, 0x68, 0x49, 0x34, 0x12, 0x8F, 0x16]) s =
      .next (s.answering (.error .ft12LenDup)) ∧
    exec (.ft12TryParse [0x68, 0x04, 0x03, 0x68, 0x49, 0x34, 0x12, 0x8F, 0x16]) s = .next (s.answering .needMore) ∧
    exec (.ft12TryParse [0x68, 0x03, 0x03, 0x68, 0x49, 0x34, 0x12, 0x90, 0x16]) s =
      .next (s.answering (.error .ft12Checksum)) ∧
    exec (.ft12TryParse [0x68, 0x03, 0x03, 0x68, 0x49, 0x34, 0x12, 0x8F, 0x17]) s =
      .next (s.answering (.error .ft12End)) ∧
    exec (.ft12TryParse [0x68, 0x03, 0x03, 0x68, 0x49, 0x34, 0x12, 0x90, 0x17]) s =
      .next (s.answering (.error .ft12Checksum)) ∧
    exec (.ft12TryParse [0x10, 0x49, 0x01, 0x4A, 0x16]) s = .next (s.answering .needMore) ∧
    ∀ f : Ft12Frame, f.data.length = 252 →
      exec (.ft12TryParse (ft12Image f)) s = .next (s.answering (.ok (.ft12Parsed f 261)))

/-- R66: parse after encode, with any bytes following, gives the frame and the wire length; encode after parse gives the
consumed bytes. -/
def Obligations.Ft12RoundTrip : Prop :=
  (∀ (f : Ft12Frame) (s t : State) (w : List Byte), exec (.ft12Encode f) s = .next t →
    t.outcome = some (.ok (.wire w)) → ∀ (tail : List Byte) (u : State),
      exec (.ft12TryParse (w ++ tail)) u = .next (u.answering (.ok (.ft12Parsed f w.length)))) ∧
  (∀ (b : List Byte) (f : Ft12Frame) (c : Nat) (s t : State), exec (.ft12TryParse b) s = .next t →
    t.outcome = some (.ok (.ft12Parsed f c)) → ∀ u : State,
      exec (.ft12Encode f) u = .next (u.answering (.ok (.wire (b.take c)))))

/-- R64: a format error is final for its leading bytes: no bytes appended change it; and a successful parse consumes
exactly LEN + 6 bytes, which are present. -/
def Obligations.Ft12FormatErrorIsFinal : Prop :=
  ∀ (buf : List Byte) (s t : State), exec (.ft12TryParse buf) s = .next t →
    (∀ c, t.outcome = some (.error c) → ∀ (tail : List Byte) (u : State),
      exec (.ft12TryParse (buf ++ tail)) u = .next (u.answering (.error c))) ∧
    (∀ f c, t.outcome = some (.ok (.ft12Parsed f c)) → c = (byteAt buf 1).toNat + 6 ∧ c ≤ buf.length)

/-- R27: either parse is decided by the first LEN + 6 (FT1.2) or LEN + 2 (APCI) bytes, LEN being the byte at index 1, and
a successful parse consumes exactly that many. -/
def Obligations.ParsesReadOnlyTheirFrame : Prop :=
  ∀ (buf : List Byte) (s : State),
    exec (.ft12TryParse buf) s = exec (.ft12TryParse (buf.take ((byteAt buf 1).toNat + 6))) s ∧
    exec (.apciTryParse buf) s = exec (.apciTryParse (buf.take ((byteAt buf 1).toNat + 2))) s ∧
    (∀ f c, exec (.ft12TryParse buf) s = .next (s.answering (.ok (.ft12Parsed f c))) → c = (byteAt buf 1).toNat + 6) ∧
    (∀ f c, exec (.apciTryParse buf) s = .next (s.answering (.ok (.apciParsed f c))) → c = (byteAt buf 1).toNat + 2)

/-- R126: the checksum does not notice a change of the counted bytes that keeps their number and their sum modulo 256:
the changed frame, under the old checksum, is accepted as the other frame. -/
def Obligations.ChecksumMissesEqualSums : Prop :=
  ∀ (f g : Ft12Frame) (s : State), f.data.length ≤ 252 → g.data.length = f.data.length →
    sumMod256 (ft12Counted g) = sumMod256 (ft12Counted f) →
    exec (.ft12TryParse ([0x68, BitVec.ofNat 8 (3 + f.data.length), BitVec.ofNat 8 (3 + f.data.length), 0x68]
      ++ ft12Counted g ++ [sumMod256 (ft12Counted f), 0x16])) s =
      .next (s.answering (.ok (.ft12Parsed g (g.data.length + 9))))

/-- R40, R43: the wire row FT12.FRAME, presented whole and with any bytes after it, is accepted: the fields as laid out,
the consumed count LEN + 6, no other state written (a wire row is run as its parse: log entry 5). -/
def Obligations.Ft12FrameRowIsAccepted : Prop :=
  ∀ (len control lo hi cs : Byte) (data tail : List Byte) (s : State),
    len.toNat = 3 + data.length →
    cs.toNat = (control.toNat + lo.toNat + hi.toNat + (data.map BitVec.toNat).sum) % 256 →
    ∃ f : Ft12Frame, f.control = control ∧ f.address.toNat = lo.toNat + 256 * hi.toNat ∧ f.data = data ∧
      exec (.ft12Frame len len ([control, lo, hi] ++ data ++ [cs, 0x16] ++ tail)) s =
        .next (s.answering (.ok (.ft12Parsed f (len.toNat + 6))))

/-- R52: the wire row FT12.FRAME with unequal LEN bytes, LEN below 3, or too few bytes is answered as the FT1.2 parse
answers it (a wire row is run as its parse: log entry 5). -/
def Obligations.Ft12FrameRowErrors : Prop :=
  ∀ (len len2 : Byte) (rest : List Byte) (s : State),
    (rest.length < len.toNat + 2 → exec (.ft12Frame len len2 rest) s = .next (s.answering .needMore)) ∧
    (len.toNat + 2 ≤ rest.length → len2 ≠ len →
      exec (.ft12Frame len len2 rest) s = .next (s.answering (.error .ft12LenDup))) ∧
    (len.toNat + 2 ≤ rest.length → len2 = len → len.toNat < 3 →
      exec (.ft12Frame len len2 rest) s = .next (s.answering (.error .ft12LenShort)))

/-! ## FT1.2: the accumulator -/

/-- R67, R107: FT12.APPEND within the capacity applies FT12.TRYPARSE to `ACC ++ bytes`: on OK it delivers the frame and
removes the consumed bytes, otherwise it answers as the parse does and keeps every byte; nothing else changes. -/
def Obligations.AppendExtractsAsTryParse : Prop :=
  ∀ (s : State) (bytes : List Byte) (u t : State),
    (∀ cap, Config.accCap = some cap → s.acc.length + bytes.length ≤ cap) →
    exec (.ft12TryParse (s.acc ++ bytes)) u = .next t →
    (∀ f c, t.outcome = some (.ok (.ft12Parsed f c)) → exec (.ft12Append bytes) s =
      .next { s with acc := (s.acc ++ bytes).drop c, outcome := some (.ok (.ft12 f)) }) ∧
    (t.outcome = some .needMore → exec (.ft12Append bytes) s =
      .next { s with acc := s.acc ++ bytes, outcome := some .needMore }) ∧
    (∀ c, t.outcome = some (.error c) → exec (.ft12Append bytes) s =
      .next { s with acc := s.acc ++ bytes, outcome := some (.error c) })

/-- R70: whatever the capacity, an append that would exceed it is refused whole with ACC_OVERFLOW, the content unchanged;
one that fits is not; FT12.APPEND is that operation at the block's own capacity, which is at least 261 or unbounded. -/
def Obligations.OverflowingAppendIsRefusedWhole : Prop :=
  (∀ (cap : Nat) (acc bytes : List Byte), 261 ≤ cap →
    (cap < acc.length + bytes.length → accAppend (some cap) acc bytes = (acc, .error .accOverflow)) ∧
    (acc.length + bytes.length ≤ cap → (accAppend (some cap) acc bytes).2 ≠ .error .accOverflow)) ∧
  (∀ acc bytes : List Byte, (accAppend none acc bytes).2 ≠ .error .accOverflow) ∧
  (∀ cap, Config.accCap = some cap → 261 ≤ cap) ∧
  (∀ (s : State) (bytes : List Byte), exec (.ft12Append bytes) s =
    .next { s with acc := (accAppend Config.accCap s.acc bytes).1,
                   outcome := some (accAppend Config.accCap s.acc bytes).2 })

/-- R70: an accumulator that awaits the rest of its head frame can take it, whatever the capacity, and then answers with a
verdict. -/
def Obligations.AwaitedBytesAlwaysFit : Prop :=
  ∀ (s : State) (bytes : List Byte), ft12TryParse s.acc = .needMore → 2 ≤ s.acc.length →
    s.acc.length + bytes.length = (byteAt s.acc 1).toNat + 6 →
    ∃ t, exec (.ft12Append bytes) s = .next t ∧ t.outcome ≠ some (.error .accOverflow) ∧ t.outcome ≠ some .needMore

/-- R68: an append that ends in a format error leaves the persistent-error condition; in that condition every append fails
with the same cause and keeps every byte, or overflows and changes nothing. -/
def Obligations.FormatErrorPersistsInAcc : Prop :=
  (∀ (s t : State) (bytes : List Byte) (c : Cause), exec (.ft12Append bytes) s = .next t →
    t.outcome = some (.error c) → c.cls = .formatError → t.acc = s.acc ++ bytes ∧ t.StuckOn c) ∧
  (∀ (s : State) (bytes : List Byte) (c : Cause), s.StuckOn c →
    exec (.ft12Append bytes) s = .next { s with acc := s.acc ++ bytes, outcome := some (.error c) } ∨
    exec (.ft12Append bytes) s = .next (s.answering (.error .accOverflow)))

/-- R123, R108: after an append that ends in a format error, through any number of steps in which neither RESET nor reset
stands among the inputs taken, no frame is delivered, no byte of `ACC` is lost and the condition stays; and so from any
state in the persistent-error condition. What waits behind those inputs may be anything. -/
def Obligations.NoFrameAfterFormatErrorUntilReset : Prop :=
  (∀ (k : Nat) (r s t : State) (bytes : List Byte) (c : Cause), exec (.ft12Append bytes) r = .next s →
    s.outcome = some (.error c) → c.cls = .formatError →
    (∀ x ∈ s.pending.take k, x.isReset = false) → Host.Core.run Sys2Proof.core k s = .next t →
    t.StuckOn c ∧ t.NothingDelivered ∧ ∃ more, t.acc = s.acc ++ more) ∧
  (∀ (k : Nat) (s t : State) (c : Cause), s.StuckOn c → s.NothingDelivered →
    (∀ x ∈ s.pending.take k, x.isReset = false) → Host.Core.run Sys2Proof.core k s = .next t →
    t.StuckOn c ∧ t.NothingDelivered ∧ ∃ more, t.acc = s.acc ++ more)

/-- R26: a delivered frame stood at the head of `ACC`: its wire bytes are exactly the bytes removed; and no parse accepts
bytes whose first is not the start byte. -/
def Obligations.FramesAreFoundOnlyAtTheHead : Prop :=
  (∀ (s t : State) (bytes : List Byte) (f : Ft12Frame), exec (.ft12Append bytes) s = .next t →
    t.outcome = some (.ok (.ft12 f)) → s.acc ++ bytes = ft12Image f ++ t.acc) ∧
  (∀ (buf : List Byte) (s t : State) (p : Payload), byteAt buf 0 ≠ 0x68 →
    (exec (.ft12TryParse buf) s = .next t ∨ exec (.apciTryParse buf) s = .next t) → t.outcome ≠ some (.ok p))

/-- R69: one append, one frame: of two complete frames the first is delivered and the second stays, complete, until the
next append, which may be empty. -/
def Obligations.OneFramePerAppend : Prop :=
  ∀ (f g : Ft12Frame) (tail bytes : List Byte) (s : State), f.data.length ≤ 252 → g.data.length ≤ 252 →
    (∀ cap, Config.accCap = some cap → s.acc.length + bytes.length ≤ cap) →
    s.acc ++ bytes = ft12Image f ++ ft12Image g ++ tail →
    ∃ t, exec (.ft12Append bytes) s = .next t ∧ t.outcome = some (.ok (.ft12 f)) ∧ t.acc = ft12Image g ++ tail ∧
      exec (.ft12Append []) t = .next { t with acc := tail, outcome := some (.ok (.ft12 g)) }

/-- R33, R69: the frames that stand in `ACC` are delivered in the order their bytes were appended, one per empty append,
and the bytes after them stay (the list of pending appends is the model's own, log entry 1). -/
def Obligations.FramesAreDeliveredInArrivalOrder : Prop :=
  ∀ (fs : List Ft12Frame) (tail : List Byte) (s : State) (rest : List Input), (∀ f ∈ fs, f.data.length ≤ 252) →
    s.AccWithinCap → s.acc = (fs.map ft12Image).flatten ++ tail →
    s.pending = List.replicate fs.length (.request (.operation 0x3 [])) ++ rest →
    ∀ (k : Nat) (hk : k < fs.length), ∃ t, Host.Core.run Sys2Proof.core (k + 1) s = .next t ∧
      t.outcome = some (.ok (.ft12 fs[k])) ∧ t.acc = ((fs.drop (k + 1)).map ft12Image).flatten ++ tail

/-- R71 (b): a frame cut into any pieces, empty ones allowed, is reassembled: from an empty `ACC` every append before the
one that completes it answers NEED_MORE and keeps the bytes, and that one delivers the frame and leaves `ACC` empty (the list of
pending appends, and that what waits behind them stays, is the model's own, log entry 1). -/
def Obligations.FragmentedFrameIsReassembled : Prop :=
  ∀ (f : Ft12Frame) (ps : List (List Byte)) (q : List Byte) (s : State) (rest : List Input), f.data.length ≤ 252 →
    s.acc = [] → q ≠ [] → ps.flatten ++ q = ft12Image f →
    s.pending = (ps ++ [q]).map (fun p => Input.request (.operation 0x3 p)) ++ rest →
    (∀ k, k < ps.length → ∃ t, Host.Core.run Sys2Proof.core (k + 1) s = .next t ∧
      t.acc = (ps.take (k + 1)).flatten ∧ t.outcome = some .needMore) ∧
    ∃ t, Host.Core.run Sys2Proof.core (ps.length + 1) s = .next t ∧ t.acc = [] ∧ t.outcome = some (.ok (.ft12 f)) ∧
      t.pending = rest

/-- R71 (a): a frame with its CHECKSUM byte corrupted is refused with FT12_CHECKSUM and nothing is consumed: appended to an
empty `ACC` it stays there whole. -/
def Obligations.CorruptedChecksumIsRejected : Prop :=
  ∀ (f : Ft12Frame) (b : Byte) (w : List Byte) (s : State), f.data.length ≤ 252 → b ≠ sumMod256 (ft12Counted f) →
    w = (ft12Image f).set (7 + f.data.length) b →
    exec (.ft12TryParse w) s = .next (s.answering (.error .ft12Checksum)) ∧
    (s.acc = [] → exec (.ft12Append w) s = .next { s with acc := w, outcome := some (.error .ft12Checksum) })

/-- R124: while the first byte of the content is not the start byte, every append, whatever came with earlier ones, is
answered NEED_MORE until LEN + 6 bytes are present, LEN being the second byte, and FT12_START1 from then on; no byte is
lost (the capacity allowing). -/
def Obligations.StrayFirstByteIsReportedLate : Prop :=
  ∀ (s : State) (bytes : List Byte), 2 ≤ (s.acc ++ bytes).length → byteAt (s.acc ++ bytes) 0 ≠ 0x68 →
    (∀ cap, Config.accCap = some cap → s.acc.length + bytes.length ≤ cap) →
    ((s.acc ++ bytes).length < (byteAt (s.acc ++ bytes) 1).toNat + 6 →
      exec (.ft12Append bytes) s = .next { s with acc := s.acc ++ bytes, outcome := some .needMore }) ∧
    ((byteAt (s.acc ++ bytes) 1).toNat + 6 ≤ (s.acc ++ bytes).length →
      exec (.ft12Append bytes) s = .next { s with acc := s.acc ++ bytes, outcome := some (.error .ft12Start1) })

/-! ## APCI -/

/-- R81, R82: APCI.ENC_I answers the wire bytes of R45 and R50 for a payload of at most 251 bytes, ENC_LENGTH for a longer
one, and writes no state. -/
def Obligations.ApciEncIWritesTheFrame : Prop :=
  ∀ (sendSeq recvSeq : Seq15) (payload : List Byte) (s : State),
    (payload.length ≤ 251 → exec (.apciEncI sendSeq recvSeq payload) s =
      .next (s.answering (.ok (.wire (apciImage (.i sendSeq recvSeq payload)))))) ∧
    (251 < payload.length → exec (.apciEncI sendSeq recvSeq payload) s = .next (s.answering (.error .encLength)))

/-- R83: APCI.ENC_S answers `68 04 01 00` and recvSeq shifted left by one, never fails, and writes no state. -/
def Obligations.ApciEncSWritesTheFrame : Prop :=
  ∀ (recvSeq : Seq15) (s : State),
    exec (.apciEncS recvSeq) s = .next (s.answering (.ok (.wire (apciImage (.s recvSeq)))))

/-- R85, R86: APCI.ENC_U answers `68 04`, the code and `00 00` for a code with low bits 11, ENC_OPERAND for any other, and
writes no state. -/
def Obligations.ApciEncUWritesTheFrame : Prop :=
  ∀ (code : Word16) (s : State),
    (code.toNat % 4 = 3 → exec (.apciEncU code) s = .next (s.answering (.ok (.wire (apciImage (.u code)))))) ∧
    (code.toNat % 4 ≠ 3 → exec (.apciEncU code) s = .next (s.answering (.error .encOperand)))

/-- R47: a sequence number stands in bits 15:1 of its control word: seven bits in the first byte above bit 0, eight in the
second; a parsed I-frame's numbers are its control words shifted right by one. -/
def Obligations.SequenceNumbersInBits15To1 : Prop :=
  (∀ (sendSeq recvSeq : Seq15) (payload : List Byte) (s t : State) (w : List Byte),
    exec (.apciEncI sendSeq recvSeq payload) s = .next t → t.outcome = some (.ok (.wire w)) →
    (byteAt w 2).toNat = 2 * (sendSeq.toNat % 128) ∧ (byteAt w 3).toNat = sendSeq.toNat / 128 ∧
    (byteAt w 4).toNat = 2 * (recvSeq.toNat % 128) ∧ (byteAt w 5).toNat = recvSeq.toNat / 128) ∧
  (∀ (buf : List Byte) (s t : State) (sendSeq recvSeq : Seq15) (payload : List Byte) (c : Nat),
    exec (.apciTryParse buf) s = .next t → t.outcome = some (.ok (.apciParsed (.i sendSeq recvSeq payload) c)) →
    sendSeq.toNat = ((byteAt buf 2).toNat + 256 * (byteAt buf 3).toNat) / 2 ∧
    recvSeq.toNat = ((byteAt buf 4).toNat + 256 * (byteAt buf 5).toNat) / 2)

/-- R87, R106: APCI.TRYPARSE answers exactly one of its outcomes, each exactly when the tests before it passed and its own
decided, in the order of R87; the frame type from F1's two low bits alone; no state is written. -/
def Obligations.ApciParseDecidesInOrder : Prop :=
  ∀ (buf : List Byte) (s : State), ∃ r : Result,
    exec (.apciTryParse buf) s = .next (s.answering r) ∧
    (let len := (byteAt buf 1).toNat
     let header := 2 ≤ buf.length
     let start := byteAt buf 0 = 0x68
     let long := 4 ≤ len
     let present := len + 2 ≤ buf.length
     let f1 := (byteAt buf 2).toNat + 256 * (byteAt buf 3).toNat
     let f2 := (byteAt buf 4).toNat + 256 * (byteAt buf 5).toNat
     (r = .needMore ↔ ¬ header ∨ (start ∧ long ∧ ¬ present)) ∧
     (r = .error .apciStart ↔ header ∧ ¬ start) ∧
     (r = .error .apciLenShort ↔ header ∧ start ∧ ¬ long) ∧
     (∀ q n p c, r = .ok (.apciParsed (.i q n p) c) ↔ header ∧ start ∧ long ∧ present ∧ f1 % 2 = 0 ∧
       q.toNat = f1 / 2 ∧ n.toNat = f2 / 2 ∧ p = slice buf 6 (len + 2) ∧ c = len + 2) ∧
     (∀ n c, r = .ok (.apciParsed (.s n) c) ↔ header ∧ start ∧ long ∧ present ∧ f1 % 4 = 1 ∧
       n.toNat = f2 / 2 ∧ c = len + 2) ∧
     (∀ code c, r = .ok (.apciParsed (.u code) c) ↔ header ∧ start ∧ long ∧ present ∧ f1 % 4 = 3 ∧
       code.toNat = f1 ∧ c = len + 2))

/-- R89: the corner cases of APCI.TRYPARSE, row by row of its table. -/
def Obligations.ApciParseCornerCases : Prop :=
  ∀ s : State,
    exec (.apciTryParse []) s = .next (s.answering .needMore) ∧
    exec (.apciTryParse [0x68]) s = .next (s.answering .needMore) ∧
    exec (.apciTryParse [0x00]) s = .next (s.answering .needMore) ∧
    exec (.apciTryParse [0x00, 0x04]) s = .next (s.answering (.error .apciStart)) ∧
    (∀ len ∈ [0x00#8, 0x01#8, 0x02#8, 0x03#8],
      exec (.apciTryParse [0x68, len]) s = .next (s.answering (.error .apciLenShort))) ∧
    exec (.apciTryParse [0x69, 0x03]) s = .next (s.answering (.error .apciStart)) ∧
    exec (.apciTryParse [0x68, 0x04]) s = .next (s.answering .needMore) ∧
    exec (.apciTryParse [0x68, 0x04, 0x07, 0x00, 0x00]) s = .next (s.answering .needMore) ∧
    exec (.apciTryParse [0x68, 0x04, 0x07, 0x00, 0x00, 0x00]) s =
      .next (s.answering (.ok (.apciParsed (.u 0x0007) 6))) ∧
    exec (.apciTryParse [0x68, 0x04, 0x07, 0x00, 0x00, 0x00, 0x68, 0x04]) s =
      .next (s.answering (.ok (.apciParsed (.u 0x0007) 6))) ∧
    exec (.apciTryParse [0x68, 0x04, 0x00, 0x00, 0x00, 0x00]) s =
      .next (s.answering (.ok (.apciParsed (.i 0 0 []) 6))) ∧
    exec (.apciTryParse [0x68, 0x04, 0x02, 0x00, 0x00, 0x00]) s =
      .next (s.answering (.ok (.apciParsed (.i 1 0 []) 6))) ∧
    exec (.apciTryParse [0x68, 0x04, 0xFE, 0xFF, 0xFE, 0xFF]) s =
      .next (s.answering (.ok (.apciParsed (.i 32767 32767 []) 6))) ∧
    exec (.apciTryParse [0x68, 0x04, 0x01, 0x00, 0x14, 0x00]) s =
      .next (s.answering (.ok (.apciParsed (.s 10) 6))) ∧
    exec (.apciTryParse [0x68, 0x04, 0x01, 0x00, 0x15, 0x00]) s =
      .next (s.answering (.ok (.apciParsed (.s 10) 6))) ∧
    exec (.apciTryParse [0x68, 0x04, 0x05, 0x80, 0x14, 0x00]) s =
      .next (s.answering (.ok (.apciParsed (.s 10) 6))) ∧
    exec (.apciTryParse [0x68, 0x04, 0x07, 0x00, 0x34, 0x12]) s =
      .next (s.answering (.ok (.apciParsed (.u 0x0007) 6))) ∧
    exec (.apciTryParse [0x68, 0x04, 0x0F, 0x00, 0x00, 0x00]) s =
      .next (s.answering (.ok (.apciParsed (.u 0x000F) 6))) ∧
    exec (.apciTryParse [0x68, 0x04, 0x07, 0x01, 0x00, 0x00]) s =
      .next (s.answering (.ok (.apciParsed (.u 0x0107) 6))) ∧
    exec (.apciTryParse [0x68, 0x06, 0x01, 0x00, 0x14, 0x00, 0xAA, 0xBB]) s =
      .next (s.answering (.ok (.apciParsed (.s 10) 8))) ∧
    ∀ rest : List Byte, rest.length = 255 →
      ∃ f, exec (.apciTryParse (0x68 :: 0xFF :: rest)) s = .next (s.answering (.ok (.apciParsed f 257)))

/-- R90: parse after encode, with any bytes following, gives the frame and the wire length, for all three encoders; encode
after parse need not give the bytes back, as the rule's own example shows. -/
def Obligations.ApciRoundTrip : Prop :=
  (∀ (q r : Seq15) (payload : List Byte) (s t : State) (w : List Byte), exec (.apciEncI q r payload) s = .next t →
    t.outcome = some (.ok (.wire w)) → ∀ (tail : List Byte) (u : State),
      exec (.apciTryParse (w ++ tail)) u = .next (u.answering (.ok (.apciParsed (.i q r payload) w.length)))) ∧
  (∀ (r : Seq15) (s : State), ∃ w, exec (.apciEncS r) s = .next (s.answering (.ok (.wire w))) ∧
    ∀ (tail : List Byte) (u : State),
      exec (.apciTryParse (w ++ tail)) u = .next (u.answering (.ok (.apciParsed (.s r) 6)))) ∧
  (∀ (code : Word16) (s t : State) (w : List Byte), exec (.apciEncU code) s = .next t →
    t.outcome = some (.ok (.wire w)) → ∀ (tail : List Byte) (u : State),
      exec (.apciTryParse (w ++ tail)) u = .next (u.answering (.ok (.apciParsed (.u code) 6)))) ∧
  (∀ s : State, exec (.apciTryParse [0x68, 0x04, 0x01, 0x00, 0x15, 0x00]) s =
      .next (s.answering (.ok (.apciParsed (.s 10) 6))) ∧
    exec (.apciEncS 10) s = .next (s.answering (.ok (.wire [0x68, 0x04, 0x01, 0x00, 0x14, 0x00]))))

/-- R88: an APCI format error is final for its leading bytes: no bytes appended change it. -/
def Obligations.ApciFormatErrorIsFinal : Prop :=
  ∀ (buf : List Byte) (s t : State) (c : Cause), exec (.apciTryParse buf) s = .next t →
    t.outcome = some (.error c) → ∀ (tail : List Byte) (u : State),
      exec (.apciTryParse (buf ++ tail)) u = .next (u.answering (.error c))

/-- R49: ENC_U of each named code writes the frame of the table, and each named row, its extra bytes and second control
word whatever they are, is answered U(code) with LEN + 2 bytes consumed, no other state written (a wire row is run as its
parse: log entry 5). -/
def Obligations.NamedUCommands : Prop :=
  ∀ (len : Byte) (f2 : Word16) (rest : List Byte) (s : State),
    exec (.apciEncU 0x0007) s = .next (s.answering (.ok (.wire [0x68, 0x04, 0x07, 0x00, 0x00, 0x00]))) ∧
    exec (.apciEncU 0x000B) s = .next (s.answering (.ok (.wire [0x68, 0x04, 0x0B, 0x00, 0x00, 0x00]))) ∧
    exec (.apciEncU 0x0013) s = .next (s.answering (.ok (.wire [0x68, 0x04, 0x13, 0x00, 0x00, 0x00]))) ∧
    exec (.apciEncU 0x0023) s = .next (s.answering (.ok (.wire [0x68, 0x04, 0x23, 0x00, 0x00, 0x00]))) ∧
    exec (.apciEncU 0x0043) s = .next (s.answering (.ok (.wire [0x68, 0x04, 0x43, 0x00, 0x00, 0x00]))) ∧
    exec (.apciEncU 0x0083) s = .next (s.answering (.ok (.wire [0x68, 0x04, 0x83, 0x00, 0x00, 0x00]))) ∧
    (4 ≤ len.toNat → len.toNat - 4 ≤ rest.length →
      exec (.apciUStartdtAct len f2 rest) s = .next (s.answering (.ok (.apciParsed (.u 0x0007) (len.toNat + 2)))) ∧
      exec (.apciUStartdtCon len f2 rest) s = .next (s.answering (.ok (.apciParsed (.u 0x000B) (len.toNat + 2)))) ∧
      exec (.apciUStopdtAct len f2 rest) s = .next (s.answering (.ok (.apciParsed (.u 0x0013) (len.toNat + 2)))) ∧
      exec (.apciUStopdtCon len f2 rest) s = .next (s.answering (.ok (.apciParsed (.u 0x0023) (len.toNat + 2)))) ∧
      exec (.apciUTestfrAct len f2 rest) s = .next (s.answering (.ok (.apciParsed (.u 0x0043) (len.toNat + 2)))) ∧
      exec (.apciUTestfrCon len f2 rest) s = .next (s.answering (.ok (.apciParsed (.u 0x0083) (len.toNat + 2)))))

/-- R48, R53: the wire rows APCI.I, APCI.S and APCI.U, presented whole, are answered with the frame of their type: the I
payload the LEN - 4 bytes after the control bytes, the extra bytes of an S or U frame consumed and dropped, any U code
passed through; no other state written (a wire row is run as its parse: log entry 5). -/
def Obligations.ApciRowsAreAccepted : Prop :=
  ∀ (len : Byte) (rest : List Byte) (s : State), 4 ≤ len.toNat → len.toNat - 4 ≤ rest.length →
    (∀ (q r : Seq15) (spare : BitVec 1), exec (.apciI len q r spare rest) s =
      .next (s.answering (.ok (.apciParsed (.i q r (rest.take (len.toNat - 4))) (len.toNat + 2))))) ∧
    (∀ (high : BitVec 14) (r : Seq15) (spare : BitVec 1), exec (.apciS len high r spare rest) s =
      .next (s.answering (.ok (.apciParsed (.s r) (len.toNat + 2))))) ∧
    (∀ code f2 : Word16, code.toNat % 4 = 3 → exec (.apciU len code f2 rest) s =
      .next (s.answering (.ok (.apciParsed (.u code) (len.toNat + 2)))))

/-- R53 (b), R87: an APCI wire row with LEN below 4 is answered APCI_LEN_SHORT, and one with bytes of its frame still
missing NEED_MORE (a wire row is run as its parse: log entry 5). -/
def Obligations.ApciRowErrors : Prop :=
  ∀ (i : Instr) (bs : List Byte) (s : State), encode i = .apciWire bs →
    ((byteAt bs 1).toNat < 4 → exec i s = .next (s.answering (.error .apciLenShort))) ∧
    (4 ≤ (byteAt bs 1).toNat → bs.length < (byteAt bs 1).toNat + 2 → exec i s = .next (s.answering .needMore))

/-- R51: the bits a type does not use have no influence: F2[0] of I and S rows, F1[15:2] of an S row, F2 of a U row (a wire
row is run as its parse: log entry 5). -/
def Obligations.UnusedControlBitsAreIgnored : Prop :=
  ∀ (len : Byte) (rest : List Byte) (s : State),
    (∀ (q r : Seq15) (a b : BitVec 1), exec (.apciI len q r a rest) s = exec (.apciI len q r b rest) s) ∧
    (∀ (high high' : BitVec 14) (r : Seq15) (a b : BitVec 1),
      exec (.apciS len high r a rest) s = exec (.apciS len high' r b rest) s) ∧
    (∀ code f2 f2' : Word16, code.toNat % 4 = 3 → exec (.apciU len code f2 rest) s = exec (.apciU len code f2' rest) s) ∧
    (∀ f2 f2' : Word16,
      exec (.apciUStartdtAct len f2 rest) s = exec (.apciUStartdtAct len f2' rest) s ∧
      exec (.apciUStartdtCon len f2 rest) s = exec (.apciUStartdtCon len f2' rest) s ∧
      exec (.apciUStopdtAct len f2 rest) s = exec (.apciUStopdtAct len f2' rest) s ∧
      exec (.apciUStopdtCon len f2 rest) s = exec (.apciUStopdtCon len f2' rest) s ∧
      exec (.apciUTestfrAct len f2 rest) s = exec (.apciUTestfrAct len f2' rest) s ∧
      exec (.apciUTestfrCon len f2 rest) s = exec (.apciUTestfrCon len f2' rest) s)

/-- R91, R127: the host's loop, which drops the consumed bytes after each OK, recovers any sequence of encoded APCI frames
from their concatenation and keeps the unfinished rest. No format error occurs in it, so the loop's answer to one (log
entry 9) is not touched. -/
def Obligations.HostLoopRecoversApciFrames : Prop :=
  ∀ (fs : List ApciFrame) (tail : List Byte), (∀ f ∈ fs, f.encodable = true) → apciTryParse tail = .needMore →
    hostApciLoop (fs.length + 1) ((fs.map apciImage).flatten ++ tail) = (fs, tail)
end

