-- ==== Sys2Proof/Laws/Bytes.lean ====
section
/-! SUPPORT. Byte sequences, byte order and sums: the small lemmas that later proofs cite. -/

namespace Sys2Proof

/-! Byte order: the two bytes of a 16-bit field (R22) and the place of a sequence number in its word (R47). -/

@[simp] theorem loByte_word16 (lo hi : Byte) : loByte (word16 lo hi) = lo := by
  ext i h; simp [loByte, word16]

@[simp] theorem hiByte_word16 (lo hi : Byte) : hiByte (word16 lo hi) = hi := by
  ext i h
  have : 8 + i < 16 := by omega
  have : i < 16 := by omega
  simp [hiByte, word16, *]

@[simp] theorem word16_loByte_hiByte (v : Word16) : word16 (loByte v) (hiByte v) = v := by
  ext i h
  by_cases h8 : i < 8
  · simp [hiByte, loByte, word16, h8, h]
  · have : 8 + (i - 8) = i := by omega
    have : i - 8 < 8 := by omega
    simp [hiByte, loByte, word16, *]

theorem word16_toNat (lo hi : Byte) : (word16 lo hi).toNat = lo.toNat + 256 * hi.toNat := by
  have h1 := lo.isLt
  have h2 := hi.isLt
  rw [word16, BitVec.toNat_or, BitVec.toNat_shiftLeft, BitVec.toNat_setWidth, BitVec.toNat_setWidth, Nat.or_comm,
    Nat.mod_eq_of_lt (by omega : lo.toNat < 2 ^ 16), Nat.mod_eq_of_lt (by omega : hi.toNat < 2 ^ 16),
    Nat.mod_eq_of_lt (by rw [Nat.shiftLeft_eq]; omega), ← Nat.shiftLeft_add_eq_or_of_lt lo.isLt, Nat.shiftLeft_eq]
  omega

@[simp] theorem word16Bytes_length (v : Word16) : (word16Bytes v).length = 2 := rfl

@[simp] theorem seqOf_seqWord (q : Seq15) (b : BitVec 1) : seqOf (seqWord q b) = q := by
  ext i h
  have : 1 + i < 16 := by omega
  have : i < 16 := by omega
  simp [seqOf, seqWord, *]

@[simp] theorem seqWord_seqOf (w : Word16) : seqWord (seqOf w) (w.setWidth 1) = w := by
  ext i h
  by_cases h1 : i < 1
  · simp [seqOf, seqWord, h1, h]
  · have : 1 + (i - 1) = i := by omega
    have : i - 1 < 15 := by omega
    simp [seqOf, seqWord, *]

@[simp] theorem setWidth_one_seqWord (q : Seq15) (b : BitVec 1) : (seqWord q b).setWidth 1 = b := by
  ext i h; simp [seqWord]

/-- The value of a word that holds a sequence number (R47). -/
theorem seqWord_toNat (q : Seq15) (b : BitVec 1) : (seqWord q b).toNat = 2 * q.toNat + b.toNat := by
  have h1 := q.isLt
  have h2 := b.isLt
  rw [seqWord, BitVec.toNat_or, BitVec.toNat_shiftLeft, BitVec.toNat_setWidth, BitVec.toNat_setWidth,
    Nat.mod_eq_of_lt (by omega : b.toNat < 2 ^ 16), Nat.mod_eq_of_lt (by omega : q.toNat < 2 ^ 16),
    Nat.mod_eq_of_lt (by rw [Nat.shiftLeft_eq]; omega), ← Nat.shiftLeft_add_eq_or_of_lt (by simpa using h2),
    Nat.shiftLeft_eq]
  omega

theorem seqOf_toNat (w : Word16) : (seqOf w).toNat = w.toNat / 2 := by
  have := w.isLt
  simp [seqOf, Nat.shiftRight_eq_div_pow]
  omega

/-! The type bits F1[1:0] as remainders (R48). -/

theorem and_one_toNat (v : Word16) : (v &&& 0x1#16).toNat = v.toNat % 2 := by
  rw [BitVec.toNat_and]
  exact Nat.and_two_pow_sub_one_eq_mod v.toNat 1

theorem and_three_toNat (v : Word16) : (v &&& 0x3#16).toNat = v.toNat % 4 := by
  rw [BitVec.toNat_and]
  exact Nat.and_two_pow_sub_one_eq_mod v.toNat 2

theorem and_one_eq_zero_iff (v : Word16) : v &&& 0x1#16 = 0x0#16 ↔ v.toNat % 2 = 0 := by
  rw [← and_one_toNat]
  exact ⟨fun h => by simp [h], fun h => BitVec.eq_of_toNat_eq h⟩

theorem and_three_eq_one_iff (v : Word16) : v &&& 0x3#16 = 0x1#16 ↔ v.toNat % 4 = 1 := by
  rw [← and_three_toNat]
  exact ⟨fun h => by simp [h], fun h => BitVec.eq_of_toNat_eq h⟩

theorem isUCode_iff (v : Word16) : isUCode v = true ↔ v.toNat % 4 = 3 := by
  rw [isUCode, beq_iff_eq, ← and_three_toNat]
  exact ⟨fun h => by rw [h]; rfl, fun h => BitVec.eq_of_toNat_eq h⟩

/-! Reading bytes. -/

theorem byteAt_eq_getElem (b : List Byte) (i : Nat) (h : i < b.length) : byteAt b i = b[i] := by
  simp [byteAt, h]

@[simp] theorem byteAt_cons_zero (x : Byte) (b : List Byte) : byteAt (x :: b) 0 = x := rfl

@[simp] theorem byteAt_cons_succ (x : Byte) (b : List Byte) (i : Nat) : byteAt (x :: b) (i + 1) = byteAt b i := rfl

theorem byteAt_append_left (a b : List Byte) (i : Nat) (h : i < a.length) : byteAt (a ++ b) i = byteAt a i := by
  simp [byteAt, List.getD_eq_getElem?_getD, List.getElem?_append, h]

theorem byteAt_append_right (a b : List Byte) (i : Nat) : byteAt (a ++ b) (a.length + i) = byteAt b i := by
  simp [byteAt, List.getD_eq_getElem?_getD, List.getElem?_append]

theorem byteAt_take (b : List Byte) (i n : Nat) (h : i < n) : byteAt (b.take n) i = byteAt b i := by
  simp [byteAt, List.getD_eq_getElem?_getD, h]

theorem word16At_append_left (a b : List Byte) (i : Nat) (h : i + 1 < a.length) :
    word16At (a ++ b) i = word16At a i := by
  simp only [word16At, byteAt_append_left a b i (by omega), byteAt_append_left a b (i + 1) h]

/-! Slices. -/

theorem slice_length (b : List Byte) (i j : Nat) (h : j ≤ b.length) : (slice b i j).length = j - i := by
  simp [slice]; omega

theorem slice_append_left (a b : List Byte) (i j : Nat) (h : j ≤ a.length) : slice (a ++ b) i j = slice a i j := by
  unfold slice
  by_cases hi : i ≤ a.length
  · rw [List.drop_append_of_le_length hi, List.take_append_of_le_length (by simp; omega)]
  · have : j - i = 0 := by omega
    simp [this]

@[simp] theorem slice_cons_succ (x : Byte) (b : List Byte) (i j : Nat) :
    slice (x :: b) (i + 1) (j + 1) = slice b i j := by
  simp [slice]

@[simp] theorem slice_zero (b : List Byte) (j : Nat) : slice b 0 j = b.take j := by simp [slice]

/-! Sums. -/

theorem byteSum_append (a b : List Byte) : byteSum (a ++ b) = byteSum a + byteSum b := by
  induction a with
  | nil => simp [byteSum]
  | cons x a ih => simp [byteSum, ih, Nat.add_assoc]

theorem byteSum_eq_sum (bs : List Byte) : byteSum bs = (bs.map BitVec.toNat).sum := by
  induction bs with
  | nil => rfl
  | cons x bs ih => simp [byteSum, ih]

/-! Wire layouts. -/

@[simp] theorem ft12WireBytes_length (len len2 : Byte) (rest : List Byte) :
    (ft12WireBytes len len2 rest).length = rest.length + 4 := rfl

@[simp] theorem apciWireBytes_length (len : Byte) (f1 f2 : Word16) (rest : List Byte) :
    (apciWireBytes len f1 f2 rest).length = rest.length + 6 := rfl

end Sys2Proof
end

