-- ==== Sys2Proof/Laws/Decode.lean ====
section
/-! SUPPORT. The decoder's and the encoder's fields: each is read back from the bytes it is written to. -/

namespace Sys2Proof

/-- A sequence-number operand is read back from its two bytes (log entry 4). -/
theorem seqOperand_of_bytes (q : Seq15) :
    seqOperand (loByte (q.setWidth 16)) (hiByte (q.setWidth 16)) = some q := by
  have := q.isLt
  have h : (q.setWidth 16).toNat = q.toNat := by simp; omega
  simp only [seqOperand, word16_loByte_hiByte, h]
  rw [if_pos (by omega)]
  congr 1
  apply BitVec.eq_of_toNat_eq
  simp

theorem sWord_toNat (high : BitVec 14) : (sWord high).toNat = 4 * high.toNat + 1 := by
  have h1 := high.isLt
  rw [sWord, BitVec.toNat_or, BitVec.toNat_shiftLeft, BitVec.toNat_setWidth,
    Nat.mod_eq_of_lt (by omega : high.toNat < 2 ^ 16), Nat.mod_eq_of_lt (by rw [Nat.shiftLeft_eq]; omega),
    ← Nat.shiftLeft_add_eq_or_of_lt (by simp), Nat.shiftLeft_eq]
  simp
  omega

/-- The unused bits of an S-frame's first word are read back. -/
theorem sWord_high (high : BitVec 14) : (sWord high >>> 2).setWidth 14 = high := by
  apply BitVec.eq_of_toNat_eq
  have := high.isLt
  simp [sWord_toNat, Nat.shiftRight_eq_div_pow]
  omega

/-- An S-frame's first word is written back. -/
theorem sWord_of_high (v : Word16) (h : v.toNat % 4 = 1) : sWord ((v >>> 2).setWidth 14) = v := by
  apply BitVec.eq_of_toNat_eq
  have := v.isLt
  simp [sWord_toNat, Nat.shiftRight_eq_div_pow]
  omega

end Sys2Proof
end

