-- ==== Sys2Proof/Laws/State.lean ====
section
/-! SUPPORT. One lemma per field per update of State, so that no later proof unfolds a record update. -/

namespace Sys2Proof.Machine

variable (s : State) (r : Result) (v : List Byte) (q : Request)

@[simp] theorem State.finish_acc : (s.finish r).acc = s.acc := rfl
@[simp] theorem State.finish_pending : (s.finish r).pending = s.pending := rfl
@[simp] theorem State.finish_outcome : (s.finish r).outcome = some r := rfl

@[simp] theorem State.setAcc_acc : (s.setAcc v).acc = v := rfl
@[simp] theorem State.setAcc_pending : (s.setAcc v).pending = s.pending := rfl
@[simp] theorem State.setAcc_outcome : (s.setAcc v).outcome = s.outcome := rfl

@[simp] theorem assertReset_acc : (assertReset s).acc = [] := rfl
@[simp] theorem assertReset_pending : (assertReset s).pending = s.pending := rfl
@[simp] theorem assertReset_outcome : (assertReset s).outcome = none := rfl

@[simp] theorem State.present_acc : (s.present q).acc = s.acc := rfl
@[simp] theorem State.present_pending : (s.present q).pending = .request q :: s.pending := rfl
@[simp] theorem State.present_outcome : (s.present q).outcome = s.outcome := rfl

@[simp] theorem State.reset_acc : State.reset.acc = [] := rfl
@[simp] theorem State.reset_pending : State.reset.pending = [] := rfl
@[simp] theorem State.reset_outcome : State.reset.outcome = none := rfl

end Sys2Proof.Machine
end

