-- ==== Sys2Proof/Laws/Exec.lean ====
section
/-! SUPPORT. What each instruction's meaning is over the shared operations: later proofs cite these and unfold neither
`exec` nor a meaning. -/

namespace Sys2Proof.Machine

@[simp] theorem State.answering_acc (s : State) (r : Result) : (s.answering r).acc = s.acc := rfl
@[simp] theorem State.answering_pending (s : State) (r : Result) : (s.answering r).pending = s.pending := rfl
@[simp] theorem State.answering_outcome (s : State) (r : Result) : (s.answering r).outcome = some r := rfl

theorem exec_ft12Encode (f : Ft12Frame) (s : State) :
    exec (.ft12Encode f) s = .next (s.answering (ft12EncodeResult f)) := rfl

theorem exec_ft12TryParse (buf : List Byte) (s : State) :
    exec (.ft12TryParse buf) s = .next (s.answering ((ft12TryParse buf).toResult .ft12Parsed)) := rfl

theorem exec_ft12Append (bytes : List Byte) (s : State) :
    exec (.ft12Append bytes) s =
      .next { s with acc := (accAppend Config.accCap s.acc bytes).1,
                     outcome := some (accAppend Config.accCap s.acc bytes).2 } := rfl

theorem exec_apciEncI (q r : Seq15) (payload : List Byte) (s : State) :
    exec (.apciEncI q r payload) s = .next (s.answering (apciEncIResult q r payload)) := rfl

theorem exec_apciEncS (r : Seq15) (s : State) :
    exec (.apciEncS r) s = .next (s.answering (apciEncSResult r)) := rfl

theorem exec_apciEncU (code : Word16) (s : State) :
    exec (.apciEncU code) s = .next (s.answering (apciEncUResult code)) := rfl

theorem exec_apciTryParse (buf : List Byte) (s : State) :
    exec (.apciTryParse buf) s = .next (s.answering ((apciTryParse buf).toResult .apciParsed)) := rfl

/-! A wire-frame row is run as the parse of its bytes (log entry 5). -/

theorem exec_ft12Frame (len len2 : Byte) (rest : List Byte) (s : State) :
    exec (.ft12Frame len len2 rest) s = exec (.ft12TryParse (ft12WireBytes len len2 rest)) s := rfl

theorem exec_apciI (len : Byte) (q r : Seq15) (spare : BitVec 1) (rest : List Byte) (s : State) :
    exec (.apciI len q r spare rest) s =
      exec (.apciTryParse (apciWireBytes len (seqWord q 0#1) (seqWord r spare) rest)) s := rfl

theorem exec_apciS (len : Byte) (high : BitVec 14) (r : Seq15) (spare : BitVec 1) (rest : List Byte) (s : State) :
    exec (.apciS len high r spare rest) s =
      exec (.apciTryParse (apciWireBytes len (sWord high) (seqWord r spare) rest)) s := rfl

theorem exec_apciU (len : Byte) (code f2 : Word16) (rest : List Byte) (s : State) :
    exec (.apciU len code f2 rest) s = exec (.apciTryParse (apciWireBytes len code f2 rest)) s := rfl

theorem exec_apciUStartdtAct (len : Byte) (f2 : Word16) (rest : List Byte) (s : State) :
    exec (.apciUStartdtAct len f2 rest) s = exec (.apciTryParse (apciWireBytes len codeStartdtAct f2 rest)) s := rfl

theorem exec_apciUStartdtCon (len : Byte) (f2 : Word16) (rest : List Byte) (s : State) :
    exec (.apciUStartdtCon len f2 rest) s = exec (.apciTryParse (apciWireBytes len codeStartdtCon f2 rest)) s := rfl

theorem exec_apciUStopdtAct (len : Byte) (f2 : Word16) (rest : List Byte) (s : State) :
    exec (.apciUStopdtAct len f2 rest) s = exec (.apciTryParse (apciWireBytes len codeStopdtAct f2 rest)) s := rfl

theorem exec_apciUStopdtCon (len : Byte) (f2 : Word16) (rest : List Byte) (s : State) :
    exec (.apciUStopdtCon len f2 rest) s = exec (.apciTryParse (apciWireBytes len codeStopdtCon f2 rest)) s := rfl

theorem exec_apciUTestfrAct (len : Byte) (f2 : Word16) (rest : List Byte) (s : State) :
    exec (.apciUTestfrAct len f2 rest) s = exec (.apciTryParse (apciWireBytes len codeTestfrAct f2 rest)) s := rfl

theorem exec_apciUTestfrCon (len : Byte) (f2 : Word16) (rest : List Byte) (s : State) :
    exec (.apciUTestfrCon len f2 rest) s = exec (.apciTryParse (apciWireBytes len codeTestfrCon f2 rest)) s := rfl

end Sys2Proof.Machine
end

