-- ==== Sys2Proof/Laws/Ops.lean ====
section
/-! SUPPORT. What each shared operation can do, said once: later proofs cite these and do not unfold the operations. -/

namespace Sys2Proof.Machine

/-- The capacity test is `n <= ACC_CAP` (R5). -/
theorem capFits_accCap (n : Nat) :
    capFits Config.accCap n = true ↔ ∀ c, Config.accCap = some c → n ≤ c := by
  unfold Config.accCap capFits
  cases Config.accHeadroom with
  | none => simp
  | some k => simp; omega

/-- Whatever the capacity, 261 bytes fit (R5). -/
theorem capFits_of_le (cap : Option Nat) (n : Nat) (h : n ≤ ft12FrameMax) : capFits cap n = true := by
  simp [capFits, h]

/-- The block's own capacity holds 261 bytes (R5). -/
theorem le_accCap (n : Nat) (h : n ≤ 261) : ∀ cap, Config.accCap = some cap → n ≤ cap :=
  (capFits_accCap n).1 (capFits_of_le _ _ h)

/-- When the FT1.2 parse needs more (R63 lines 1 and 3). -/
theorem ft12TryParse_needMore (buf : List Byte) :
    ft12TryParse buf = .needMore ↔ buf.length < 2 ∨ buf.length < (byteAt buf 1).toNat + ft12Overhead := by
  unfold ft12TryParse
  dsimp only
  repeat' split
  all_goals simp_all

/-- What an accepted FT1.2 parse has checked, and what it answers (R63 lines 4 to 14). -/
theorem ft12TryParse_ok {buf : List Byte} {f : Ft12Frame} {c : Nat} (h : ft12TryParse buf = .ok f c) :
    (byteAt buf 1).toNat + 6 ≤ buf.length ∧ byteAt buf 0 = startByte ∧ byteAt buf 3 = startByte ∧
      byteAt buf 2 = byteAt buf 1 ∧ 3 ≤ (byteAt buf 1).toNat ∧
      byteAt buf (4 + (byteAt buf 1).toNat) = checksum (slice buf 4 (4 + (byteAt buf 1).toNat)) ∧
      byteAt buf (5 + (byteAt buf 1).toNat) = endByte ∧
      f = ⟨byteAt buf 4, word16At buf 5, slice buf 7 (4 + (byteAt buf 1).toNat)⟩ ∧
      c = (byteAt buf 1).toNat + 6 := by
  unfold ft12TryParse at h
  dsimp only at h
  repeat' split at h
  all_goals simp_all [ft12Overhead, ft12LenMin]

/-- A buffer that passes every check is accepted (R63). -/
theorem ft12TryParse_accept {buf : List Byte} (hl : (byteAt buf 1).toNat + 6 ≤ buf.length)
    (h0 : byteAt buf 0 = startByte) (h3 : byteAt buf 3 = startByte) (h2 : byteAt buf 2 = byteAt buf 1)
    (hm : 3 ≤ (byteAt buf 1).toNat)
    (hc : byteAt buf (4 + (byteAt buf 1).toNat) = checksum (slice buf 4 (4 + (byteAt buf 1).toNat)))
    (he : byteAt buf (5 + (byteAt buf 1).toNat) = endByte) :
    ft12TryParse buf = .ok ⟨byteAt buf 4, word16At buf 5, slice buf 7 (4 + (byteAt buf 1).toNat)⟩
      ((byteAt buf 1).toNat + 6) := by
  have h1 : ¬ buf.length < 2 := by omega
  have h1' : ¬ buf.length < (byteAt buf 1).toNat + 6 := by omega
  have h1'' : ¬ (byteAt buf 1).toNat < 3 := by omega
  simp [ft12TryParse, ft12Overhead, ft12LenMin, *]

/-- When the APCI parse needs more (R87 lines 1 and 5). -/
theorem apciTryParse_needMore (buf : List Byte) :
    apciTryParse buf = .needMore ↔ buf.length < 2 ∨
      (byteAt buf 0 = startByte ∧ 4 ≤ (byteAt buf 1).toNat ∧ buf.length < (byteAt buf 1).toNat + 2) := by
  unfold apciTryParse
  dsimp only
  repeat' split
  all_goals simp_all [apciOverhead, apciLenMin]

/-- When the APCI parse accepts, and what it answers (R87 lines 6 to 13). -/
theorem apciTryParse_ok (buf : List Byte) (f : ApciFrame) (c : Nat) :
    apciTryParse buf = .ok f c ↔ byteAt buf 0 = startByte ∧ 4 ≤ (byteAt buf 1).toNat ∧
      (byteAt buf 1).toNat + 2 ≤ buf.length ∧ f = apciFrameOf buf (byteAt buf 1).toNat ∧
      c = (byteAt buf 1).toNat + 2 := by
  unfold apciTryParse
  dsimp only
  repeat' split
  all_goals simp_all [apciOverhead, apciLenMin, eq_comm]
  all_goals omega

/-- What an append can do to the accumulator and what it answers (R67 to R70). -/
theorem accAppend_cases (cap : Option Nat) (acc bytes : List Byte) :
    (capFits cap (acc.length + bytes.length) = false ∧ accAppend cap acc bytes = (acc, .error .accOverflow)) ∨
    (capFits cap (acc.length + bytes.length) = true ∧
      ((∃ f c, ft12TryParse (acc ++ bytes) = .ok f c ∧
          accAppend cap acc bytes = ((acc ++ bytes).drop c, .ok (.ft12 f))) ∨
        (ft12TryParse (acc ++ bytes) = .needMore ∧ accAppend cap acc bytes = (acc ++ bytes, .needMore)) ∨
        (∃ c, ft12TryParse (acc ++ bytes) = .error c ∧ accAppend cap acc bytes = (acc ++ bytes, .error c)))) := by
  cases hc : capFits cap (acc.length + bytes.length) <;> cases hp : ft12TryParse (acc ++ bytes) <;>
    simp [accAppend, hc, hp]

/-- `FT12.ENCODE` within its limit (R61). -/
theorem ft12EncodeResult_fits (f : Ft12Frame) (h : f.data.length ≤ 252) :
    ft12EncodeResult f = .ok (.wire (ft12WireBytes (ft12LenByte f.data) (ft12LenByte f.data)
      (ft12Body f ++ [checksum (ft12Body f), endByte]))) := by
  simp [ft12EncodeResult, ft12DataFits, ft12DataMax, h]

/-- `FT12.ENCODE` beyond its limit (R62). -/
theorem ft12EncodeResult_long (f : Ft12Frame) (h : 252 < f.data.length) :
    ft12EncodeResult f = .error .encLength := by
  simp [ft12EncodeResult, ft12DataFits, ft12DataMax, Nat.not_le.mpr h]

/-- `APCI.ENC_I` within its limit (R81). -/
theorem apciEncIResult_fits (s r : Seq15) (payload : List Byte) (h : payload.length ≤ 251) :
    apciEncIResult s r payload =
      .ok (.wire (apciWireBytes (apciLenByte payload) (seqWord s 0#1) (seqWord r 0#1) payload)) := by
  simp [apciEncIResult, apciPayloadFits, apciPayloadMax, h]

/-- `APCI.ENC_I` beyond its limit (R82). -/
theorem apciEncIResult_long (s r : Seq15) (payload : List Byte) (h : 251 < payload.length) :
    apciEncIResult s r payload = .error .encLength := by
  simp [apciEncIResult, apciPayloadFits, apciPayloadMax, Nat.not_le.mpr h]

end Sys2Proof.Machine
end

