-- ==== Sys2Proof/Laws/PerInstr.lean ====
section
/-! SUPPORT. For each instruction: the request its encoder writes is of the kind of its row of the opcode table (R56). -/

-- One theorem at a time: each one elaborated beside the others takes a thread's stack, and there are many here.
set_option Elab.async false

namespace Sys2Proof.Laws.EncodeMatchesRow

/-- The encoder's request has the bits its table row fixes. -/
def Statement (i : Instr) : Prop := i.wellFormed = true → (rowOf i).describes (encode i) = true

theorem reset : Statement .reset := fun _ => by decide

theorem ft12Encode (f : Ft12Frame) : Statement (.ft12Encode f) := fun _ => by
  simp [rowOf, encode, TableRow.describes, opFt12Encode]

theorem ft12TryParse (buf : List Byte) : Statement (.ft12TryParse buf) := fun _ => by
  simp [rowOf, encode, TableRow.describes, opFt12TryParse]

theorem ft12Append (bytes : List Byte) : Statement (.ft12Append bytes) := fun _ => by
  simp [rowOf, encode, TableRow.describes, opFt12Append]

theorem apciEncI (s r : Seq15) (payload : List Byte) : Statement (.apciEncI s r payload) := fun _ => by
  simp [rowOf, encode, TableRow.describes, opApciEncI]

theorem apciEncS (r : Seq15) : Statement (.apciEncS r) := fun _ => by
  simp [rowOf, encode, TableRow.describes, opApciEncS]

theorem apciEncU (code : Word16) : Statement (.apciEncU code) := fun _ => by
  simp [rowOf, encode, TableRow.describes, opApciEncU]

theorem apciTryParse (buf : List Byte) : Statement (.apciTryParse buf) := fun _ => by
  simp [rowOf, encode, TableRow.describes, opApciTryParse]

theorem opReserved (op : BitVec 4) (operands : List Byte) : Statement (.opReserved op operands) := fun h => by
  simpa [rowOf, encode, TableRow.describes, Instr.wellFormed, opIsReserved] using h

theorem ft12Frame (len len2 : Byte) (rest : List Byte) : Statement (.ft12Frame len len2 rest) := fun _ => by
  simp [rowOf, encode, TableRow.describes, rowFt12Frame, ft12WireBytes, startByte, matchBytes]

/-- The low byte of a control word under a mask (R48: F1's low bits are CTRL1's). -/
theorem loByte_and (w m : Word16) : loByte w &&& loByte m = loByte (w &&& m) := by
  ext i h; simp [loByte]

theorem apciI (len : Byte) (s r : Seq15) (spare : BitVec 1) (rest : List Byte) :
    Statement (.apciI len s r spare rest) := fun _ => by
  have h : loByte (seqWord s 0#1) &&& 0x1#8 = 0x0#8 := by
    ext i h; interval_cases i <;> simp [loByte, seqWord]
  simp [rowOf, encode, TableRow.describes, rowApciI, apciWireBytes, startByte, matchBytes, h]

theorem apciS (len : Byte) (high : BitVec 14) (r : Seq15) (spare : BitVec 1) (rest : List Byte) :
    Statement (.apciS len high r spare rest) := fun _ => by
  have h : loByte (sWord high) &&& 0x3#8 = 0x1#8 := by
    ext i h; interval_cases i <;> simp [loByte, sWord]
  simp [rowOf, encode, TableRow.describes, rowApciS, apciWireBytes, startByte, matchBytes, h]

theorem apciU (len : Byte) (code f2 : Word16) (rest : List Byte) : Statement (.apciU len code f2 rest) := fun hw => by
  have hu : code &&& 0x3#16 = 0x3#16 := by
    simp only [Instr.wellFormed, isUCode, Bool.and_eq_true, beq_iff_eq] at hw
    exact hw.1
  have h : loByte code &&& 0x3#8 = 0x3#8 := by
    simpa [hu, loByte] using loByte_and code 0x3#16
  simp [rowOf, encode, TableRow.describes, rowApciU, apciWireBytes, startByte, matchBytes, h]

theorem apciUStartdtAct (len : Byte) (f2 : Word16) (rest : List Byte) :
    Statement (.apciUStartdtAct len f2 rest) := fun _ => by
  simp [rowOf, encode, TableRow.describes, rowNamedU, apciWireBytes, startByte, matchBytes, codeStartdtAct, loByte, hiByte]

theorem apciUStartdtCon (len : Byte) (f2 : Word16) (rest : List Byte) :
    Statement (.apciUStartdtCon len f2 rest) := fun _ => by
  simp [rowOf, encode, TableRow.describes, rowNamedU, apciWireBytes, startByte, matchBytes, codeStartdtCon, loByte, hiByte]

theorem apciUStopdtAct (len : Byte) (f2 : Word16) (rest : List Byte) :
    Statement (.apciUStopdtAct len f2 rest) := fun _ => by
  simp [rowOf, encode, TableRow.describes, rowNamedU, apciWireBytes, startByte, matchBytes, codeStopdtAct, loByte, hiByte]

theorem apciUStopdtCon (len : Byte) (f2 : Word16) (rest : List Byte) :
    Statement (.apciUStopdtCon len f2 rest) := fun _ => by
  simp [rowOf, encode, TableRow.describes, rowNamedU, apciWireBytes, startByte, matchBytes, codeStopdtCon, loByte, hiByte]

theorem apciUTestfrAct (len : Byte) (f2 : Word16) (rest : List Byte) :
    Statement (.apciUTestfrAct len f2 rest) := fun _ => by
  simp [rowOf, encode, TableRow.describes, rowNamedU, apciWireBytes, startByte, matchBytes, codeTestfrAct, loByte, hiByte]

theorem apciUTestfrCon (len : Byte) (f2 : Word16) (rest : List Byte) :
    Statement (.apciUTestfrCon len f2 rest) := fun _ => by
  simp [rowOf, encode, TableRow.describes, rowNamedU, apciWireBytes, startByte, matchBytes, codeTestfrCon, loByte, hiByte]

end Sys2Proof.Laws.EncodeMatchesRow
end

