-- ==== Sys2Proof/Laws/Step.lean ====
section
/-! SUPPORT. What a step can do, said once by the input it takes. -/

namespace Sys2Proof.Machine

/-- The step by what stands at the input. -/
theorem step_idle (s : State) (h : s.pending = []) : step s = .next s := by
  simp [step, fetch, h]

theorem step_resetAsserted (s : State) (rest : List Input) (h : s.pending = .resetAsserted :: rest) :
    step s = .next (assertReset { s with pending := rest }) := by
  simp [step, fetch, h]

theorem step_decoded (s : State) (r : Request) (rest : List Input) (i : Instr)
    (h : s.pending = .request r :: rest) (hd : decode r = .ok i) :
    step s = exec i { s with pending := rest } := by
  simp [step, fetch, h, hd]

theorem step_rejected (s : State) (r : Request) (rest : List Input) (e : DecodeError)
    (h : s.pending = .request r :: rest) (hd : decode r = .error e) :
    step s = rejectRequest e := by
  simp [step, fetch, h, hd]

/-- A rejected request is no next state. -/
theorem rejectRequest_ne_next (e : DecodeError) (t : State) : rejectRequest e ≠ .next t := by
  cases e <;> simp [rejectRequest]

/-- If a step answers a next state, one of three things happened: nothing was pending, reset was asserted, or a decoded
instruction ran. -/
theorem step_cases {s t : State} (h : step s = .next t) :
    (s.pending = [] ∧ t = s) ∨
    (∃ rest, s.pending = .resetAsserted :: rest ∧ t = assertReset { s with pending := rest }) ∨
    (∃ r rest i, s.pending = .request r :: rest ∧ decode r = .ok i ∧ exec i { s with pending := rest } = .next t) := by
  cases hp : s.pending with
  | nil =>
    rw [step_idle s hp] at h
    exact .inl ⟨rfl, (Host.Outcome.next.inj h).symm⟩
  | cons x rest =>
    cases x with
    | resetAsserted =>
      rw [step_resetAsserted s rest hp] at h
      exact .inr (.inl ⟨rest, rfl, (Host.Outcome.next.inj h).symm⟩)
    | request r =>
      cases hd : decode r with
      | ok i => exact .inr (.inr ⟨r, rest, i, rfl, hd, step_decoded s r rest i hp hd ▸ h⟩)
      | error e => exact absurd (step_rejected s r rest e hp hd ▸ h) (rejectRequest_ne_next e t)

/-! Runs of the block: a step, then the rest. -/

theorem core_run_zero (s : State) : Host.Core.run Sys2Proof.core 0 s = .next s := rfl

theorem core_run_succ (k : Nat) {s t : State} (h : step s = .next t) :
    Host.Core.run Sys2Proof.core (k + 1) s = Host.Core.run Sys2Proof.core k t := by
  have general : ∀ (M : Host.Core) (a b : M.State), M.step a = .next b → M.run (k + 1) a = M.run k b := by
    intro M a b hab
    have hrun : M.run (k + 1) a = match M.step a with
      | .next c => M.run k c
      | .fault r => .fault r
      | .refused r => .refused r := rfl
    rw [hrun, hab]
  exact general Sys2Proof.core s t h

/-- A run that answers a next state took a step that did. -/
theorem core_run_next {k : Nat} {s t : State} (h : Host.Core.run Sys2Proof.core (k + 1) s = .next t) :
    ∃ m, step s = .next m ∧ Host.Core.run Sys2Proof.core k m = .next t := by
  have general : ∀ (M : Host.Core) (a b : M.State), M.run (k + 1) a = .next b →
      ∃ m, M.step a = .next m ∧ M.run k m = .next b := by
    intro M a b hab
    have hrun : M.run (k + 1) a = match M.step a with
      | .next c => M.run k c
      | .fault r => .fault r
      | .refused r => .refused r := rfl
    rw [hrun] at hab
    cases hs : M.step a with
    | next m => rw [hs] at hab; exact ⟨m, rfl, hab⟩
    | fault r => rw [hs] at hab; cases hab
    | refused r => rw [hs] at hab; cases hab
  exact general Sys2Proof.core s t h

end Sys2Proof.Machine
end

