-- ==== Sys2Proof/Tests/Slice0.lean ====
section
/-! SUPPORT. Tests. Expected results are those of spec/95_test_vectors.md (named by vector) or words written out from the
tables of spec/30_encoding.md; and for every statement with hypotheses a witness that meets them. -/

-- One theorem at a time: each one elaborated beside the others takes a thread's stack, and there are many here.
set_option Elab.async false
-- The longest frames have 261 bytes.
set_option maxRecDepth 8000

namespace Sys2Proof.Tests

open Sys2Proof Sys2Proof.Machine

/-! ## Helpers -/

/-- A block that holds these bytes and has nothing pending. -/
def holding (acc : List Byte) : State := { acc := acc, pending := [], outcome := none }

/-- A block that holds these bytes and has these inputs pending. -/
def facing (acc : List Byte) (pending : List Input) : State := { acc := acc, pending := pending, outcome := none }

/-- What the host sees after an instruction. -/
def resultOf : Host.Outcome State Fault Refusal → Option Result
  | .next t => t.outcome
  | .fault _ => none
  | .refused _ => none

/-- The accumulator after an instruction. -/
def accOf : Host.Outcome State Fault Refusal → Option (List Byte)
  | .next t => some t.acc
  | .fault _ => none
  | .refused _ => none

/-- The frame of vector F1, and its wire bytes. -/
def frameF1 : Ft12Frame := ⟨0x53, 0x0001, [0x64, 0x01]⟩
def wireF1 : List Byte := [0x68, 0x05, 0x05, 0x68, 0x53, 0x01, 0x00, 0x64, 0x01, 0xB9, 0x16]

/-- The frame of vector F2, and its wire bytes. -/
def frameF2 : Ft12Frame := ⟨0x49, 0x1234, []⟩
def wireF2 : List Byte := [0x68, 0x03, 0x03, 0x68, 0x49, 0x34, 0x12, 0x8F, 0x16]

/-- Vector P-A4: a frame with a wrong checksum. -/
def wireBad : List Byte := [0x68, 0x03, 0x03, 0x68, 0x49, 0x34, 0x12, 0x90, 0x16]

/-- The 202 bytes of vector P-A6. -/
def acc202 : List Byte := 0x68 :: 0xFF :: List.replicate 200 0x00

/-! ## WellFormed refuses each ill-formed term -/

theorem test_wf_reserved_select : (Instr.opReserved 0x3 []).wellFormed = false := by decide
theorem test_wf_u_low_bits : (Instr.apciU 0x04 0x0001 0x0000 []).wellFormed = false := by decide
theorem test_wf_u_named : (Instr.apciU 0x04 0x0083 0x0000 []).wellFormed = false := by decide
theorem test_wf_accepts : (Instr.opReserved 0xF []).wellFormed = true ∧ (Instr.apciU 0x04 0x000F 0x0000 []).wellFormed = true := by
  decide

/-! ## Decoding: words written out from 30_encoding.md R54 (selects), R40, R45, R47 to R49 (wire bytes) -/

theorem test_decode_reset : decode (.operation 0b0000#4 []) = .ok .reset := by decide
theorem test_decode_ft12Encode :
    decode (.operation 0b0001#4 [0x49, 0x34, 0x12]) = .ok (.ft12Encode ⟨0x49, 0x1234, []⟩) := by decide
theorem test_decode_ft12TryParse : decode (.operation 0b0010#4 [0x68]) = .ok (.ft12TryParse [0x68]) := by decide
theorem test_decode_ft12Append : decode (.operation 0b0011#4 [0x68, 0x05]) = .ok (.ft12Append [0x68, 0x05]) := by decide
theorem test_decode_apciEncI :
    decode (.operation 0b1000#4 [0x00, 0x40, 0x01, 0x00, 0xAA]) = .ok (.apciEncI 16384 1 [0xAA]) := by decide
theorem test_decode_apciEncS : decode (.operation 0b1001#4 [0xFF, 0x7F]) = .ok (.apciEncS 32767) := by decide
theorem test_decode_apciEncU : decode (.operation 0b1010#4 [0x0B, 0x01]) = .ok (.apciEncU 0x010B) := by decide
theorem test_decode_apciTryParse : decode (.operation 0b1011#4 []) = .ok (.apciTryParse []) := by decide
theorem test_decode_reserved : ∀ op ∈ [0b0100#4, 0b0101#4, 0b0110#4, 0b0111#4, 0b1100#4, 0b1101#4, 0b1110#4, 0b1111#4],
    decode (.operation op []) = .ok (.opReserved op []) := by decide
theorem test_decode_ft12Frame :
    decode (.ft12Wire wireF2) = .ok (.ft12Frame 0x03 0x03 [0x49, 0x34, 0x12, 0x8F, 0x16]) := by decide
theorem test_decode_apciI :
    decode (.apciWire [0x68, 0x05, 0x00, 0x80, 0x02, 0x00, 0xAA]) = .ok (.apciI 0x05 16384 1 0 [0xAA]) := by decide
theorem test_decode_apciS :
    decode (.apciWire [0x68, 0x04, 0x05, 0x80, 0x15, 0x00]) = .ok (.apciS 0x04 0x2001 10 1 []) := by decide
theorem test_decode_apciU :
    decode (.apciWire [0x68, 0x04, 0x07, 0x01, 0x34, 0x12]) = .ok (.apciU 0x04 0x0107 0x1234 []) := by decide
theorem test_decode_named :
    decode (.apciWire [0x68, 0x04, 0x07, 0x00, 0x00, 0x00]) = .ok (.apciUStartdtAct 0x04 0x0000 []) ∧
    decode (.apciWire [0x68, 0x04, 0x0B, 0x00, 0x00, 0x00]) = .ok (.apciUStartdtCon 0x04 0x0000 []) ∧
    decode (.apciWire [0x68, 0x04, 0x13, 0x00, 0x00, 0x00]) = .ok (.apciUStopdtAct 0x04 0x0000 []) ∧
    decode (.apciWire [0x68, 0x04, 0x23, 0x00, 0x00, 0x00]) = .ok (.apciUStopdtCon 0x04 0x0000 []) ∧
    decode (.apciWire [0x68, 0x04, 0x43, 0x00, 0x00, 0x00]) = .ok (.apciUTestfrAct 0x04 0x0000 []) ∧
    decode (.apciWire [0x68, 0x04, 0x83, 0x00, 0x00, 0x00]) = .ok (.apciUTestfrCon 0x04 0x0000 []) := by decide

/-- Bytes that no wire row describes are plain input of the parse (R52, R53). -/
theorem test_decode_no_row :
    decode (.ft12Wire [0x68, 0x03, 0x03, 0x69]) = .ok (.ft12TryParse [0x68, 0x03, 0x03, 0x69]) ∧
    decode (.apciWire [0x68, 0x04, 0x07, 0x00, 0x00]) = .ok (.apciTryParse [0x68, 0x04, 0x07, 0x00, 0x00]) ∧
    decode (.apciWire [0x69, 0x04, 0x07, 0x00, 0x00, 0x00]) = .ok (.apciTryParse [0x69, 0x04, 0x07, 0x00, 0x00, 0x00]) := by
  decide

/-- Operand bytes that are no operation's operands, each refused by name. -/
theorem test_decode_rejects :
    decode (.operation 0x1 [0x49, 0x34]) = .error .operandsMissing ∧
    decode (.operation 0x0 [0x00]) = .error .operandsLeftOver ∧
    decode (.operation 0xA [0x07, 0x00, 0x00]) = .error .operandsLeftOver ∧
    decode (.operation 0x9 [0x00, 0x80]) = .error .seqTooWide ∧
    decode (.operation 0x8 [0x00, 0x00, 0x00, 0x80]) = .error .seqTooWide := by decide

/-! ## The opcode table's words: match values, unnamed bits zero -/

theorem test_table_operations :
    decodeTableWord 8 0x0 = some .reset ∧ decodeTableWord 8 0x1 = some (.ft12Encode ⟨0, 0, []⟩) ∧
    decodeTableWord 8 0x2 = some (.ft12TryParse []) ∧ decodeTableWord 8 0x3 = some (.ft12Append []) ∧
    decodeTableWord 8 0x8 = some (.apciEncI 0 0 []) ∧ decodeTableWord 8 0x9 = some (.apciEncS 0) ∧
    decodeTableWord 8 0xA = some (.apciEncU 0) ∧ decodeTableWord 8 0xB = some (.apciTryParse []) ∧
    decodeTableWord 8 0x4 = some (.opReserved 0x4 []) ∧ decodeTableWord 8 0x10 = none := by decide

theorem test_table_wire :
    decodeTableWord 32 0x68000068 = some (.ft12Frame 0 0 [0, 0]) ∧
    decodeTableWord 48 0x000000000068 = some (.apciI 0 0 0 0 []) ∧
    decodeTableWord 48 0x000000010068 = some (.apciS 0 0 0 0 []) ∧
    decodeTableWord 48 0x000000030068 = some (.apciU 0 0x0003 0 []) ∧
    decodeTableWord 48 0x000000070668 = some (.apciUStartdtAct 6 0 [0, 0]) ∧
    decodeTableWord 48 0x0000000B0068 = some (.apciUStartdtCon 0 0 []) ∧
    decodeTableWord 48 0x000000130068 = some (.apciUStopdtAct 0 0 []) ∧
    decodeTableWord 48 0x000000230068 = some (.apciUStopdtCon 0 0 []) ∧
    decodeTableWord 48 0x000000430068 = some (.apciUTestfrAct 0 0 []) ∧
    decodeTableWord 48 0x000000830468 = some (.apciUTestfrCon 4 0 []) := by decide

/-- A table word placed at the input is what the very next step from reset runs. -/
theorem test_table_step :
    resultOf (step (State.reset.withFetchWord 8 0x3)) = some .needMore ∧
    resultOf (step (State.reset.withFetchWord 8 0x1)) =
      some (.ok (.wire [0x68, 0x03, 0x03, 0x68, 0x00, 0x00, 0x00, 0x00, 0x16])) ∧
    resultOf (step (State.reset.withFetchWord 8 0x4)) = some (.error .opReserved) ∧
    resultOf (step (State.reset.withFetchWord 32 0x68000068)) = some (.error .ft12LenShort) ∧
    resultOf (step (State.reset.withFetchWord 48 0x000000830468)) = some (.ok (.apciParsed (.u 0x0083) 6)) := by decide

/-! ## Each instruction, one step -/

/-- Z3. -/
theorem test_reset : accOf (exec .reset (holding wireBad)) = some [] ∧
    resultOf (exec .reset (holding wireBad)) = some (.ok .done) := by decide
/-- F1. -/
theorem test_ft12Encode : resultOf (exec (.ft12Encode frameF1) (holding [])) = some (.ok (.wire wireF1)) := by decide
/-- F3: the sum wraps. -/
theorem test_ft12Encode_wrap : resultOf (exec (.ft12Encode ⟨0xFF, 0xFFFF, [0xFF]⟩) (holding [])) =
    some (.ok (.wire [0x68, 0x04, 0x04, 0x68, 0xFF, 0xFF, 0xFF, 0xFF, 0xFC, 0x16])) := by decide
/-- T17, and Z6: `ACC` untouched. -/
theorem test_ft12TryParse : resultOf (exec (.ft12TryParse wireF1) (holding [0x68, 0x05])) =
      some (.ok (.ft12Parsed frameF1 11)) ∧
    accOf (exec (.ft12TryParse wireF1) (holding [0x68, 0x05])) = some [0x68, 0x05] := by decide
/-- T8: the wait is governed by the first copy of LEN. -/
theorem test_ft12TryParse_lenDup : resultOf (exec (.ft12TryParse [0x68, 0x03, 0x04, 0x68, 0x49, 0x34, 0x12, 0x8F, 0x16])
    (holding [])) = some (.error .ft12LenDup) := by decide
/-- P-A3. -/
theorem test_ft12Append : accOf (exec (.ft12Append [0x49, 0x34, 0x12, 0x8F, 0x16, 0x68, 0x05])
      (holding [0x68, 0x03, 0x03, 0x68])) = some [0x68, 0x05] ∧
    resultOf (exec (.ft12Append [0x49, 0x34, 0x12, 0x8F, 0x16, 0x68, 0x05]) (holding [0x68, 0x03, 0x03, 0x68])) =
      some (.ok (.ft12 frameF2)) := by decide
/-- P-A6 and P-A7, at the capacity of the vectors, 261. -/
theorem test_ft12Append_overflow :
    accAppend (some 261) acc202 (List.replicate 60 0x00) = (acc202, .error .accOverflow) ∧
    (accAppend (some 261) acc202 (List.replicate 59 0x00)).2 = .error .ft12Start2 ∧
    (accAppend (some 261) acc202 (List.replicate 59 0x00)).1.length = 261 := by decide
/-- A4: bit 14 of the number in bit 7 of CTRL2. -/
theorem test_apciEncI : resultOf (exec (.apciEncI 16384 1 [0xAA]) (holding [])) =
    some (.ok (.wire [0x68, 0x05, 0x00, 0x80, 0x02, 0x00, 0xAA])) := by decide
/-- A1, the source's own example S1. -/
theorem test_apciEncI_source : resultOf (exec (.apciEncI 5 10 [0x01, 0x02, 0x03]) (holding [])) =
    some (.ok (.wire [0x68, 0x07, 0x0A, 0x00, 0x14, 0x00, 0x01, 0x02, 0x03])) := by decide
/-- A17. -/
theorem test_apciEncS : resultOf (exec (.apciEncS 32767) (holding [])) =
    some (.ok (.wire [0x68, 0x04, 0x01, 0x00, 0xFE, 0xFF])) := by decide
/-- A10, A13. -/
theorem test_apciEncU : resultOf (exec (.apciEncU 0x0023) (holding [])) =
      some (.ok (.wire [0x68, 0x04, 0x23, 0x00, 0x00, 0x00])) ∧
    resultOf (exec (.apciEncU 0x000F) (holding [])) = some (.ok (.wire [0x68, 0x04, 0x0F, 0x00, 0x00, 0x00])) := by decide
/-- A14. -/
theorem test_apciEncU_operand : resultOf (exec (.apciEncU 0x0001) (holding [])) = some (.error .encOperand) ∧
    resultOf (exec (.apciEncU 0x0004) (holding [])) = some (.error .encOperand) := by decide
/-- B11, B9. -/
theorem test_apciTryParse : resultOf (exec (.apciTryParse [0x68, 0x05, 0x00, 0x80, 0x02, 0x00, 0xAA]) (holding [])) =
      some (.ok (.apciParsed (.i 16384 1 [0xAA]) 7)) ∧
    resultOf (exec (.apciTryParse [0x68, 0x04, 0x02, 0x00, 0x00, 0x00]) (holding [])) =
      some (.ok (.apciParsed (.i 1 0 []) 6)) := by decide
/-- B3: the start byte before LEN. -/
theorem test_apciTryParse_start : resultOf (exec (.apciTryParse [0x69, 0x03]) (holding [])) = some (.error .apciStart) := by
  decide
/-- Z5. -/
theorem test_opReserved : resultOf (exec (.opReserved 0xD [0x01]) (holding [0x68, 0x05])) = some (.error .opReserved) ∧
    accOf (exec (.opReserved 0xD [0x01]) (holding [0x68, 0x05])) = some [0x68, 0x05] := by decide
/-- T19, T14. -/
theorem test_ft12Frame : resultOf (exec (.ft12Frame 0x05 0x05 [0x53, 0x01, 0x00, 0x01, 0x64, 0xB9, 0x16]) (holding [])) =
      some (.ok (.ft12Parsed ⟨0x53, 0x0001, [0x01, 0x64]⟩ 11)) ∧
    resultOf (exec (.ft12Frame 0x03 0x03 [0x49, 0x34, 0x12, 0x90, 0x17]) (holding [])) = some (.error .ft12Checksum) := by
  decide
/-- B12, B13. -/
theorem test_apciI : resultOf (exec (.apciI 0x07 5 10 0 [0x01, 0x02, 0x03]) (holding [])) =
      some (.ok (.apciParsed (.i 5 10 [0x01, 0x02, 0x03]) 9)) ∧
    resultOf (exec (.apciI 0x07 5 10 0 [0x01, 0x02]) (holding [])) = some .needMore := by decide
/-- B16, B21. -/
theorem test_apciS : resultOf (exec (.apciS 0x04 0x2001 10 0 []) (holding [])) = some (.ok (.apciParsed (.s 10) 6)) ∧
    resultOf (exec (.apciS 0x06 0x0000 10 0 [0xAA, 0xBB]) (holding [])) = some (.ok (.apciParsed (.s 10) 8)) := by decide
/-- B19, B20. -/
theorem test_apciU : resultOf (exec (.apciU 0x04 0x0003 0x0000 []) (holding [])) =
      some (.ok (.apciParsed (.u 0x0003) 6)) ∧
    resultOf (exec (.apciU 0x04 0x0107 0x0000 []) (holding [])) = some (.ok (.apciParsed (.u 0x0107) 6)) := by decide
/-- B17, B22 and R49's table. -/
theorem test_named :
    resultOf (exec (.apciUStartdtAct 0x04 0x1234 []) (holding [])) = some (.ok (.apciParsed (.u 0x0007) 6)) ∧
    resultOf (exec (.apciUStartdtCon 0x04 0x0000 []) (holding [])) = some (.ok (.apciParsed (.u 0x000B) 6)) ∧
    resultOf (exec (.apciUStopdtAct 0x04 0x0000 []) (holding [])) = some (.ok (.apciParsed (.u 0x0013) 6)) ∧
    resultOf (exec (.apciUStopdtCon 0x04 0x0000 []) (holding [])) = some (.ok (.apciParsed (.u 0x0023) 6)) ∧
    resultOf (exec (.apciUTestfrAct 0x06 0x0000 [0xAA, 0xBB]) (holding [])) = some (.ok (.apciParsed (.u 0x0043) 8)) ∧
    resultOf (exec (.apciUTestfrCon 0x04 0x0000 []) (holding [])) = some (.ok (.apciParsed (.u 0x0083) 6)) := by decide

/-! ## Witnesses: for each statement with hypotheses, states and operands that meet them -/

theorem witness_ResetEmptiesAcc : (facing wireBad [.resetAsserted]).pending = .resetAsserted :: [] := rfl

theorem witness_StepRunsDecodedRequest :
    (facing [] [.request (.operation 0x9 [0x0A, 0x00])]).pending = .request (.operation 0x9 [0x0A, 0x00]) :: [] ∧
    decode (.operation 0x9 [0x0A, 0x00]) = .ok (.apciEncS 10) ∧ (holding wireF1).pending = [] := by decide

theorem witness_StepTakesInputsInOrder :
    step (facing [0x68] [.request (.operation 0x0 []), .resetAsserted]) =
      .next { acc := [], pending := [.resetAsserted], outcome := some (.ok .done) } := rfl

/-- Each of the three stops, and a step that goes on. -/
theorem witness_StepStopsOnlyOnRejectedOperands :
    step (facing [] [.request (.operation 0x9 [0x0A])]) = .fault .operandsMissing ∧
    step (facing [] [.request (.operation 0x9 [0x0A, 0x00, 0x00])]) = .fault .operandsLeftOver ∧
    step (facing [] [.request (.operation 0x9 [0x00, 0x80])]) = .refused .seqTooWide ∧
    step (holding []) = .next (holding []) := ⟨rfl, rfl, rfl, rfl⟩

theorem witness_StatelessInstructionsArePure : (Instr.apciEncU 0x0007).writesAcc = false := rfl

/-- RESET; an append that waits, one that delivers and one that fails; an instruction that leaves `ACC`. The overflow, whose
capacity has no value, is P-A6 above. -/
theorem witness_AccWrittenInThreeWaysOnly :
    exec .reset (holding wireBad) = .next { acc := [], pending := [], outcome := some (.ok .done) } ∧
    exec (.ft12Append [0x05]) (holding [0x68]) =
      .next { acc := [0x68, 0x05], pending := [], outcome := some .needMore } ∧
    exec (.ft12Append wireF2) (holding []) = .next { acc := [], pending := [], outcome := some (.ok (.ft12 frameF2)) } ∧
    exec (.ft12Append wireBad) (holding []) =
      .next { acc := wireBad, pending := [], outcome := some (.error .ft12Checksum) } ∧
    exec (.ft12TryParse []) (holding [0x68]) = .next { acc := [0x68], pending := [], outcome := some .needMore } :=
  ⟨rfl, rfl, rfl, rfl, rfl⟩

/-- At the least capacity: 202 bytes held, 59 appended. -/
theorem witness_StepKeepsAccWithinCapacity :
    (facing acc202 [.request (.operation 0x3 (List.replicate 59 0x00))]).AccWithinCap ∧
    step (facing acc202 [.request (.operation 0x3 (List.replicate 59 0x00))]) =
      .next { acc := acc202 ++ List.replicate 59 0x00, pending := [], outcome := some (.error .ft12Start2) } :=
  ⟨le_accCap _ (by decide), rfl⟩

theorem witness_StepKeepsOutcomeLegal :
    (facing wireF2 [.request (.operation 0x3 [])]).OutcomeLegal ∧
    step (facing wireF2 [.request (.operation 0x3 [])]) =
      .next { acc := [], pending := [], outcome := some (.ok (.ft12 frameF2)) } :=
  ⟨fun _ h => (by cases h), rfl⟩

theorem witness_DecodeOfEncode : (Instr.apciS 0xFF 0x3FFF 32767 1 [0x00]).wellFormed = true ∧
    (Instr.apciU 0x04 0xFFFF 0xFFFF []).wellFormed = true := by decide

/-- Each of the three clauses. -/
theorem witness_DecodedIsWellFormedAndEncodesBack :
    decode (.operation 0x0 []) = .ok .reset ∧ decode (.ft12Wire []) = .ok (.ft12TryParse []) ∧
    decode (.apciWire [0x68]) = .ok (.apciTryParse [0x68]) := by decide

theorem witness_OperationsDecodeByTheirRow :
    decode (.operation 0xF []) = .ok (.opReserved 0xF []) ∧
    (rowOf (.opReserved 0x4 [])).describes (.operation 0xF []) = true := by decide

theorem witness_WireBytesDecodeByTheirRow :
    decode (.ft12Wire wireF2) = .ok (.ft12Frame 0x03 0x03 [0x49, 0x34, 0x12, 0x8F, 0x16]) ∧
    (rowOf (.ft12Frame 0 0 [])).describes (.ft12Wire wireF2) = true ∧
    decode (.apciWire [0x68, 0x04, 0x07, 0x00, 0x00, 0x00]) = .ok (.apciUStartdtAct 0x04 0x0000 []) ∧
    (rowOf (.apciU 0 0x0003 0 [])).describes (.apciWire [0x68, 0x04, 0x07, 0x00, 0x00, 0x00]) = true := by decide

theorem witness_WireBytesRunTheirParse :
    (facing [] [.request (.ft12Wire wireF2)]).pending = .request (.ft12Wire wireF2) :: [] ∧
    (facing [] [.request (.apciWire [0x68])]).pending = .request (.apciWire [0x68]) :: [] := ⟨rfl, rfl⟩

/-- 32768 and 32767, in each operand. -/
theorem witness_WideSequenceOperandsRefused :
    32768 ≤ (0x00#8).toNat + 256 * (0x80#8).toNat ∧
    (32767 : Seq15).toNat = (0xFF#8).toNat + 256 * (0x7F#8).toNat ∧
    (facing [] [.request (.operation 0x9 [0x00, 0x80])]).pending = .request (.operation 0x9 [0x00, 0x80]) :: [] ∧
    (facing [] [.request (.operation 0x8 [0xFF, 0x7F, 0x00, 0x80])]).pending =
      .request (.operation 0x8 (0xFF :: 0x7F :: 0x00 :: 0x80 :: [])) :: [] := by decide

/-- The ends of both reserved ranges. -/
theorem witness_ReservedSelectsAnswerOpReserved :
    (∀ op ∈ [0x4#4, 0x7#4, 0xC#4, 0xF#4], (4 ≤ op.toNat ∧ op.toNat ≤ 7) ∨ 12 ≤ op.toNat) ∧
    (facing [0x68] [.request (.operation 0xC [0x01])]).pending = .request (.operation 0xC [0x01]) :: [] := by decide

theorem witness_CausesComeFromTheirOperations :
    exec (.apciTryParse [0x69, 0x03]) (holding []) =
      .next { acc := [], pending := [], outcome := some (.error .apciStart) } := rfl

theorem witness_SpecErrorsChangeNothing :
    exec (.apciEncU 0x0004) (holding [0x68]) =
      .next { acc := [0x68], pending := [], outcome := some (.error .encOperand) } ∧
    Cause.encOperand.cls = .spec := ⟨rfl, rfl⟩

/-- 252 and 253 data bytes. -/
theorem witness_Ft12EncodeWritesTheFrame :
    (Ft12Frame.mk 0x08 0xABCD (List.replicate 252 0x00)).data.length ≤ 252 ∧
    252 < (Ft12Frame.mk 0x00 0x0000 (List.replicate 253 0x00)).data.length := by decide

theorem witness_ChecksumIsTheSumOfTheCountedBytes :
    exec (.ft12Encode frameF1) (holding []) = .next { acc := [], pending := [], outcome := some (.ok (.wire wireF1)) } := rfl

theorem witness_Ft12WireLength :
    exec (.ft12Encode frameF2) (holding []) = .next { acc := [], pending := [], outcome := some (.ok (.wire wireF2)) } := rfl

theorem witness_Ft12ParseCornerCases : (Ft12Frame.mk 0x08 0xABCD (List.replicate 252 0x00)).data.length = 252 := by decide

theorem witness_Ft12RoundTrip :
    exec (.ft12Encode frameF1) (holding []) = .next { acc := [], pending := [], outcome := some (.ok (.wire wireF1)) } ∧
    exec (.ft12TryParse (wireF1 ++ [0x68])) (holding []) =
      .next { acc := [], pending := [], outcome := some (.ok (.ft12Parsed frameF1 11)) } := ⟨rfl, rfl⟩

theorem witness_Ft12FormatErrorIsFinal :
    exec (.ft12TryParse wireBad) (holding []) =
      .next { acc := [], pending := [], outcome := some (.error .ft12Checksum) } ∧
    exec (.ft12TryParse wireF2) (holding []) =
      .next { acc := [], pending := [], outcome := some (.ok (.ft12Parsed frameF2 9)) } := ⟨rfl, rfl⟩

theorem witness_ParsesReadOnlyTheirFrame :
    exec (.ft12TryParse (wireF2 ++ [0x68])) (holding []) = .next ((holding []).answering (.ok (.ft12Parsed frameF2 9))) ∧
    exec (.apciTryParse [0x68, 0x04, 0x07, 0x00, 0x00, 0x00, 0x68]) (holding []) =
      .next ((holding []).answering (.ok (.apciParsed (.u 0x0007) 6))) := ⟨rfl, rfl⟩

/-- T20: +1 and -1 in two data bytes. -/
theorem witness_ChecksumMissesEqualSums :
    frameF1.data.length ≤ 252 ∧ (Ft12Frame.mk 0x53 0x0001 [0x65, 0x00]).data.length = frameF1.data.length ∧
    sumMod256 (ft12Counted ⟨0x53, 0x0001, [0x65, 0x00]⟩) = sumMod256 (ft12Counted frameF1) := by decide

/-- The smallest frame, and the largest. -/
theorem witness_Ft12FrameRowIsAccepted :
    ((0x03#8).toNat = 3 + ([] : List Byte).length ∧
      (0x8F#8).toNat = ((0x49#8).toNat + (0x34#8).toNat + (0x12#8).toNat + (([] : List Byte).map BitVec.toNat).sum) % 256) ∧
    ((0xFF#8).toNat = 3 + (List.replicate 252 0x00#8).length ∧
      (0x80#8).toNat = ((0x08#8).toNat + (0xCD#8).toNat + (0xAB#8).toNat +
        ((List.replicate 252 0x00#8).map BitVec.toNat).sum) % 256) := by decide

/-- Each clause, at the number of bytes where they meet. -/
theorem witness_Ft12FrameRowErrors :
    ([0x49, 0x34, 0x12, 0x8F] : List Byte).length < (0x03#8).toNat + 2 ∧
    ((0x03#8).toNat + 2 ≤ ([0x49, 0x34, 0x12, 0x8F, 0x16] : List Byte).length ∧ 0x04#8 ≠ 0x03#8) ∧
    ((0x02#8).toNat + 2 ≤ ([0x01, 0x02, 0x03, 0x16] : List Byte).length ∧ 0x02#8 = 0x02#8 ∧ (0x02#8).toNat < 3) := by decide

/-- Each of the three answers, within the capacity. -/
theorem witness_AppendExtractsAsTryParse :
    (∀ cap, Config.accCap = some cap → (holding [0x68]).acc.length + [0x03#8].length ≤ cap) ∧
    exec (.ft12TryParse ([0x68] ++ [0x03])) (holding []) = .next ((holding []).answering .needMore) ∧
    (∀ cap, Config.accCap = some cap → (holding []).acc.length + wireF2.length ≤ cap) ∧
    exec (.ft12TryParse ([] ++ wireF2)) (holding []) = .next ((holding []).answering (.ok (.ft12Parsed frameF2 9))) ∧
    (∀ cap, Config.accCap = some cap → (holding []).acc.length + wireBad.length ≤ cap) ∧
    exec (.ft12TryParse ([] ++ wireBad)) (holding []) = .next ((holding []).answering (.error .ft12Checksum)) :=
  ⟨le_accCap _ (by decide), rfl, le_accCap _ (by decide), rfl, le_accCap _ (by decide), rfl⟩

/-- P-A6 and P-A7: 262 and 261 bytes at the capacity 261. -/
theorem witness_OverflowingAppendIsRefusedWhole :
    261 ≤ 261 ∧ 261 < acc202.length + (List.replicate 60 0x00#8).length ∧
    acc202.length + (List.replicate 59 0x00#8).length ≤ 261 := by decide

/-- The longest wait: LEN is FF, 202 of 261 bytes are there. -/
theorem witness_AwaitedBytesAlwaysFit :
    ft12TryParse (holding acc202).acc = .needMore ∧ 2 ≤ (holding acc202).acc.length ∧
    (holding acc202).acc.length + (List.replicate 59 0x00#8).length = (byteAt (holding acc202).acc 1).toNat + 6 := by decide

/-- P-A4, and the state it leaves. -/
theorem witness_FormatErrorPersistsInAcc :
    exec (.ft12Append wireBad) (holding []) =
      .next { acc := wireBad, pending := [], outcome := some (.error .ft12Checksum) } ∧
    Cause.ft12Checksum.cls = .formatError ∧ (holding wireBad).StuckOn .ft12Checksum := ⟨rfl, rfl, rfl⟩

/-- P-A4, then P-A5, with a RESET waiting behind the one input that the run takes. -/
theorem witness_NoFrameAfterFormatErrorUntilReset :
    let waiting : List Input := [.request (.operation 0x3 wireF2), .request (.operation 0x0 [])]
    let s : State := { acc := wireBad, pending := waiting, outcome := some (.error .ft12Checksum) }
    exec (.ft12Append wireBad) (facing [] waiting) = .next s ∧
    s.outcome = some (.error .ft12Checksum) ∧ Cause.ft12Checksum.cls = .formatError ∧ s.StuckOn .ft12Checksum ∧
    s.NothingDelivered ∧ (∀ x ∈ s.pending.take 1, x.isReset = false) ∧
    Host.Core.run Sys2Proof.core 1 s =
      .next { s with acc := wireBad ++ wireF2, pending := [.request (.operation 0x0 [])] } :=
  ⟨rfl, rfl, rfl, rfl, fun _ h => (by cases h; rfl), by decide, rfl⟩

theorem witness_FramesAreFoundOnlyAtTheHead :
    exec (.ft12Append [0x8F, 0x16, 0x68]) (holding [0x68, 0x03, 0x03, 0x68, 0x49, 0x34, 0x12]) =
      .next { acc := [0x68], pending := [], outcome := some (.ok (.ft12 frameF2)) } ∧
    byteAt [0x00, 0x68] 0 ≠ 0x68 ∧
    exec (.ft12TryParse [0x00, 0x68]) (holding []) = .next ((holding []).answering .needMore) ∧
    exec (.apciTryParse [0x00, 0x68]) (holding []) = .next ((holding []).answering (.error .apciStart)) :=
  ⟨rfl, by decide, rfl, rfl⟩

/-- P3's first append. -/
theorem witness_OneFramePerAppend :
    frameF2.data.length ≤ 252 ∧ frameF1.data.length ≤ 252 ∧
    (∀ cap, Config.accCap = some cap → (holding []).acc.length + (wireF2 ++ wireF1 ++ [0x68, 0x04]).length ≤ cap) ∧
    (holding []).acc ++ (wireF2 ++ wireF1 ++ [0x68, 0x04]) = ft12Image frameF2 ++ ft12Image frameF1 ++ [0x68, 0x04] :=
  ⟨by decide, by decide, le_accCap _ (by decide), by decide⟩

/-- P3's draining with empty appends. -/
theorem witness_FramesAreDeliveredInArrivalOrder :
    let s := facing (wireF2 ++ wireF1 ++ [0x68, 0x04]) (List.replicate 2 (.request (.operation 0x3 [])))
    (∀ f ∈ [frameF2, frameF1], f.data.length ≤ 252) ∧ s.AccWithinCap ∧
    s.acc = ([frameF2, frameF1].map ft12Image).flatten ++ [0x68, 0x04] ∧
    s.pending = List.replicate [frameF2, frameF1].length (.request (.operation 0x3 [])) ++ [] ∧
    1 < [frameF2, frameF1].length :=
  ⟨by decide, le_accCap _ (by decide), by decide, rfl, by decide⟩

/-- P1: five appends, an empty one among them. -/
theorem witness_FragmentedFrameIsReassembled :
    let ps : List (List Byte) := [[0x68], [0x05, 0x05, 0x68, 0x53], [], [0x01, 0x00, 0x64, 0x01, 0xB9]]
    let s := facing [] [.request (.operation 0x3 [0x68]), .request (.operation 0x3 [0x05, 0x05, 0x68, 0x53]),
      .request (.operation 0x3 []), .request (.operation 0x3 [0x01, 0x00, 0x64, 0x01, 0xB9]),
      .request (.operation 0x3 [0x16])]
    frameF1.data.length ≤ 252 ∧ s.acc = [] ∧ [0x16#8] ≠ [] ∧ ps.flatten ++ [0x16] = ft12Image frameF1 ∧
    s.pending = (ps ++ [[0x16]]).map (fun p => Input.request (.operation 0x3 p)) ++ [] := by decide

/-- S2: B9 changed to BA. -/
theorem witness_CorruptedChecksumIsRejected :
    frameF1.data.length ≤ 252 ∧ 0xBA#8 ≠ sumMod256 (ft12Counted frameF1) ∧
    [0x68, 0x05, 0x05, 0x68, 0x53, 0x01, 0x00, 0x64, 0x01, 0xBA, 0x16] = (ft12Image frameF1).set (7 + frameF1.data.length) 0xBA ∧
    (holding []).acc = [] := by decide

/-- P5's second and third appends, on what the earlier ones left: the second leaves the content one byte short, the third
completes the wait. -/
theorem witness_StrayFirstByteIsReportedLate :
    let stray : List Byte := [0x00, 0x68, 0x03, 0x03, 0x68, 0x49, 0x34, 0x12, 0x8F, 0x16]
    let zeros : List Byte := List.replicate 99 0x00
    (2 ≤ ((holding stray).acc ++ zeros).length ∧ byteAt ((holding stray).acc ++ zeros) 0 ≠ 0x68 ∧
      (∀ cap, Config.accCap = some cap → (holding stray).acc.length + zeros.length ≤ cap) ∧
      ((holding stray).acc ++ zeros).length < (byteAt ((holding stray).acc ++ zeros) 1).toNat + 6) ∧
    (2 ≤ ((holding (stray ++ zeros)).acc ++ [0x00]).length ∧ byteAt ((holding (stray ++ zeros)).acc ++ [0x00]) 0 ≠ 0x68 ∧
      (∀ cap, Config.accCap = some cap → (holding (stray ++ zeros)).acc.length + [0x00#8].length ≤ cap) ∧
      (byteAt ((holding (stray ++ zeros)).acc ++ [0x00]) 1).toNat + 6 ≤
        ((holding (stray ++ zeros)).acc ++ [0x00]).length) :=
  ⟨⟨by decide, by decide, le_accCap _ (by decide), by decide⟩, ⟨by decide, by decide, le_accCap _ (by decide), by decide⟩⟩

/-- 251 and 252 payload bytes. -/
theorem witness_ApciEncIWritesTheFrame :
    (List.replicate 251 0x55#8).length ≤ 251 ∧ 251 < (List.replicate 252 0x55#8).length := by decide

/-- Low bits 11; then 00, 01 and 10. -/
theorem witness_ApciEncUWritesTheFrame : (0xFFFF#16).toNat % 4 = 3 ∧
    (0x0004#16).toNat % 4 ≠ 3 ∧ (0x0001#16).toNat % 4 ≠ 3 ∧ (0x0002#16).toNat % 4 ≠ 3 := by decide

theorem witness_SequenceNumbersInBits15To1 :
    exec (.apciEncI 32767 0 []) (holding []) =
      .next ((holding []).answering (.ok (.wire [0x68, 0x04, 0xFE, 0xFF, 0x00, 0x00]))) ∧
    exec (.apciTryParse [0x68, 0x04, 0xFE, 0xFF, 0xFE, 0xFF]) (holding []) =
      .next ((holding []).answering (.ok (.apciParsed (.i 32767 32767 []) 6))) := ⟨rfl, rfl⟩

theorem witness_ApciParseCornerCases : (List.replicate 255 0x55#8).length = 255 := by decide

theorem witness_ApciRoundTrip :
    exec (.apciEncI 5 10 [0x01, 0x02, 0x03]) (holding []) =
      .next ((holding []).answering (.ok (.wire [0x68, 0x07, 0x0A, 0x00, 0x14, 0x00, 0x01, 0x02, 0x03]))) ∧
    exec (.apciEncU 0x000F) (holding []) =
      .next ((holding []).answering (.ok (.wire [0x68, 0x04, 0x0F, 0x00, 0x00, 0x00]))) := ⟨rfl, rfl⟩

theorem witness_ApciFormatErrorIsFinal :
    exec (.apciTryParse [0x68, 0x03]) (holding []) = .next ((holding []).answering (.error .apciLenShort)) := rfl

/-- The shortest frame, and one with two extra bytes. -/
theorem witness_NamedUCommands :
    (4 ≤ (0x04#8).toNat ∧ (0x04#8).toNat - 4 ≤ ([] : List Byte).length) ∧
    (4 ≤ (0x06#8).toNat ∧ (0x06#8).toNat - 4 ≤ [0xAA#8, 0xBB#8].length) := by decide

/-- The shortest frame and the longest, and a code. -/
theorem witness_ApciRowsAreAccepted :
    (4 ≤ (0x04#8).toNat ∧ (0x04#8).toNat - 4 ≤ ([] : List Byte).length) ∧
    (4 ≤ (0xFF#8).toNat ∧ (0xFF#8).toNat - 4 ≤ (List.replicate 251 0x55#8).length) ∧ (0x0003#16).toNat % 4 = 3 := by decide

/-- LEN 3, and LEN 4 and 5 with six bytes present: the second clause needs LEN 5. -/
theorem witness_ApciRowErrors :
    (encode (.apciS 0x03 0 10 0 []) = .apciWire [0x68, 0x03, 0x01, 0x00, 0x14, 0x00] ∧
      (byteAt [0x68, 0x03, 0x01, 0x00, 0x14, 0x00] 1).toNat < 4) ∧
    (encode (.apciS 0x05 0 10 0 []) = .apciWire [0x68, 0x05, 0x01, 0x00, 0x14, 0x00] ∧
      4 ≤ (byteAt [0x68, 0x05, 0x01, 0x00, 0x14, 0x00] 1).toNat ∧
      [0x68#8, 0x05#8, 0x01#8, 0x00#8, 0x14#8, 0x00#8].length < (byteAt [0x68, 0x05, 0x01, 0x00, 0x14, 0x00] 1).toNat + 2) := by
  decide

theorem witness_UnusedControlBitsAreIgnored : (0x0107#16).toNat % 4 = 3 := by decide

/-- P4's buffer: two whole frames and three bytes of a third. -/
theorem witness_HostLoopRecoversApciFrames :
    (∀ f ∈ [ApciFrame.u 0x000B, .i 5 10 [0x01, 0x02, 0x03]], f.encodable = true) ∧
    apciTryParse [0x68, 0x04, 0x01] = .needMore ∧
    ([ApciFrame.u 0x000B, .i 5 10 [0x01, 0x02, 0x03]].map apciImage).flatten ++ [0x68, 0x04, 0x01] =
      [0x68, 0x04, 0x0B, 0x00, 0x00, 0x00, 0x68, 0x07, 0x0A, 0x00, 0x14, 0x00, 0x01, 0x02, 0x03, 0x68, 0x04, 0x01] := by decide

end Sys2Proof.Tests
end

section
/-! SUPPORT. The outcomes of the operations are within the formats' bounds (R5, R12, R13, R42, R46), and every instruction
answers such an outcome. -/

namespace Sys2Proof.Machine

theorem exec_reset (s : State) :
    exec .reset s = .next { s with acc := [], outcome := some (.ok .done) } := rfl

theorem exec_opReserved (op : BitVec 4) (operands : List Byte) (s : State) :
    exec (.opReserved op operands) s = .next (s.answering (.error .opReserved)) := rfl

@[simp] theorem ft12Body_length (f : Ft12Frame) : (ft12Body f).length = f.data.length + 3 := by
  simp [ft12Body]; omega

theorem byteAt_toNat_le (b : List Byte) (i : Nat) : (byteAt b i).toNat ≤ 255 := by
  have := (byteAt b i).isLt
  omega

/-- LEN, at least 3 and at most 255, leaves 0 to 252 bytes of data after CONTROL and the address (R5, R42). -/
theorem ft12TryParse_ok_lengths {buf : List Byte} {f : Ft12Frame} {c : Nat} (h : ft12TryParse buf = .ok f c) :
    f.data.length ≤ 252 ∧ c = f.data.length + 9 := by
  obtain ⟨hlen, -, -, -, hmin, -, -, rfl, rfl⟩ := ft12TryParse_ok h
  have hmax := byteAt_toNat_le buf 1
  have hdata := slice_length buf 7 (4 + (byteAt buf 1).toNat) (by omega)
  constructor <;> dsimp only <;> omega

/-! The encoders. -/

theorem ft12EncodeResult_legal (f : Ft12Frame) : (ft12EncodeResult f).legal = true := by
  by_cases h : f.data.length ≤ 252
  · simp [ft12EncodeResult_fits f h, Result.legal]; omega
  · rw [ft12EncodeResult_long f (by omega)]; rfl

theorem apciEncIResult_legal (q r : Seq15) (payload : List Byte) : (apciEncIResult q r payload).legal = true := by
  by_cases h : payload.length ≤ 251
  · simp [apciEncIResult_fits q r payload h, Result.legal]; omega
  · rw [apciEncIResult_long q r payload (by omega)]; rfl

theorem apciEncSResult_legal (r : Seq15) : (apciEncSResult r).legal = true := rfl

theorem apciEncUResult_legal (code : Word16) : (apciEncUResult code).legal = true := by
  unfold apciEncUResult
  split <;> rfl

/-! The parses and the append. -/

theorem ft12Parse_legal (buf : List Byte) : ((ft12TryParse buf).toResult .ft12Parsed).legal = true := by
  cases h : ft12TryParse buf with
  | ok f c => simpa [Parse.toResult, Result.legal] using ft12TryParse_ok_lengths h
  | needMore => rfl
  | error c => rfl

/-- An I-frame's payload is what LEN leaves after the four control bytes (R46), and the type test leaves only low bits 11
to a U code (R48). -/
theorem apciFrameOf_legal (buf : List Byte) (len : Nat) (hmin : 4 ≤ len) (hmax : len ≤ 255)
    (hlen : len + 2 ≤ buf.length) : (Result.ok (.apciParsed (apciFrameOf buf len) (len + 2))).legal = true := by
  simp only [apciFrameOf, and_one_eq_zero_iff, and_three_eq_one_iff]
  split
  · have hpayload := slice_length buf 6 (len + 2) hlen
    simp [Result.legal, apciOverhead, hpayload]; omega
  · split
    · simp [Result.legal]; omega
    · simp [Result.legal]; omega

theorem apciParse_legal (buf : List Byte) : ((apciTryParse buf).toResult .apciParsed).legal = true := by
  cases h : apciTryParse buf with
  | ok f c =>
    obtain ⟨-, hmin, hlen, rfl, rfl⟩ := (apciTryParse_ok buf f c).1 h
    exact apciFrameOf_legal buf _ hmin (byteAt_toNat_le buf 1) hlen
  | needMore => rfl
  | error c => rfl

theorem accAppend_legal (cap : Option Nat) (acc bytes : List Byte) : (accAppend cap acc bytes).2.legal = true := by
  obtain ⟨-, h⟩ | ⟨-, ⟨f, c, hp, h⟩ | ⟨-, h⟩ | ⟨c, -, h⟩⟩ := accAppend_cases cap acc bytes
  · rw [h]; rfl
  · rw [h]; exact decide_eq_true (ft12TryParse_ok_lengths hp).1
  · rw [h]; rfl
  · rw [h]; rfl

/-- Every instruction answers a legal outcome and, beside it, writes at most `ACC`; a wire-frame row is run as its parse
(log entry 5). -/
theorem exec_answers_legal (i : Instr) (s : State) :
    ∃ acc r, exec i s = .next { s with acc := acc, outcome := some r } ∧ r.legal = true :=
  match i with
  | .reset => ⟨_, _, exec_reset s, rfl⟩
  | .ft12Encode f => ⟨_, _, exec_ft12Encode f s, ft12EncodeResult_legal f⟩
  | .ft12TryParse buf => ⟨_, _, exec_ft12TryParse buf s, ft12Parse_legal buf⟩
  | .ft12Append bytes => ⟨_, _, exec_ft12Append bytes s, accAppend_legal _ _ _⟩
  | .apciEncI q r payload => ⟨_, _, exec_apciEncI q r payload s, apciEncIResult_legal q r payload⟩
  | .apciEncS r => ⟨_, _, exec_apciEncS r s, apciEncSResult_legal r⟩
  | .apciEncU code => ⟨_, _, exec_apciEncU code s, apciEncUResult_legal code⟩
  | .apciTryParse buf => ⟨_, _, exec_apciTryParse buf s, apciParse_legal buf⟩
  | .opReserved op operands => ⟨_, _, exec_opReserved op operands s, rfl⟩
  | .ft12Frame len len2 rest => ⟨_, _, exec_ft12Frame len len2 rest s, ft12Parse_legal _⟩
  | .apciI len q r spare rest => ⟨_, _, exec_apciI len q r spare rest s, apciParse_legal _⟩
  | .apciS len high r spare rest => ⟨_, _, exec_apciS len high r spare rest s, apciParse_legal _⟩
  | .apciU len code f2 rest => ⟨_, _, exec_apciU len code f2 rest s, apciParse_legal _⟩
  | .apciUStartdtAct len f2 rest => ⟨_, _, exec_apciUStartdtAct len f2 rest s, apciParse_legal _⟩
  | .apciUStartdtCon len f2 rest => ⟨_, _, exec_apciUStartdtCon len f2 rest s, apciParse_legal _⟩
  | .apciUStopdtAct len f2 rest => ⟨_, _, exec_apciUStopdtAct len f2 rest s, apciParse_legal _⟩
  | .apciUStopdtCon len f2 rest => ⟨_, _, exec_apciUStopdtCon len f2 rest s, apciParse_legal _⟩
  | .apciUTestfrAct len f2 rest => ⟨_, _, exec_apciUTestfrAct len f2 rest s, apciParse_legal _⟩
  | .apciUTestfrCon len f2 rest => ⟨_, _, exec_apciUTestfrCon len f2 rest s, apciParse_legal _⟩

theorem exec_outcomeLegal {i : Instr} {s t : State} (h : exec i s = .next t) : t.OutcomeLegal := by
  obtain ⟨acc, r, hexec, hlegal⟩ := exec_answers_legal i s
  obtain rfl := Host.Outcome.next.inj (hexec.symm.trans h)
  rintro r' ⟨⟩
  exact hlegal

end Sys2Proof.Machine
end

section
/-! The invariant of the outcome the host sees. -/

namespace Sys2Proof
open Machine

/-- Settles O9, by the three things a step can do: an idle step keeps the outcome, an assertion of reset makes it absent,
and an instruction answers a legal one. -/
theorem stepKeepsOutcomeLegal : Obligations.StepKeepsOutcomeLegal := by
  intro s t hs hstep
  obtain ⟨-, rfl⟩ | ⟨rest, -, rfl⟩ | ⟨_, _, i, -, -, hexec⟩ := step_cases hstep
  · exact hs
  · rintro r ⟨⟩
  · exact exec_outcomeLegal hexec

end Sys2Proof
end

section
/-! SUPPORT. Who writes `ACC` (R24, R29), and that every writer leaves it within its capacity (R11). -/

namespace Sys2Proof.Machine

/-! The instructions that leave `ACC` alone. -/

theorem writesAcc_iff (i : Instr) : i.writesAcc = true ↔ i = .reset ∨ ∃ bytes, i = .ft12Append bytes := by
  cases i <;> simp [Instr.writesAcc]

/-- An instruction that does not write `ACC` answers one outcome in all states and changes nothing else (R10, R24); a
wire-frame row is run as its parse (log entry 5). -/
theorem exec_of_not_writesAcc : ∀ i : Instr, i.writesAcc = false → ∃ r, ∀ s, exec i s = .next (s.answering r)
  | .reset, h | .ft12Append _, h => nomatch h
  | .ft12Encode f, _ => ⟨_, exec_ft12Encode f⟩
  | .ft12TryParse buf, _ => ⟨_, exec_ft12TryParse buf⟩
  | .apciEncI q r payload, _ => ⟨_, exec_apciEncI q r payload⟩
  | .apciEncS r, _ => ⟨_, exec_apciEncS r⟩
  | .apciEncU code, _ => ⟨_, exec_apciEncU code⟩
  | .apciTryParse buf, _ => ⟨_, exec_apciTryParse buf⟩
  | .opReserved op operands, _ => ⟨_, exec_opReserved op operands⟩
  | .ft12Frame len len2 rest, _ => ⟨_, exec_ft12Frame len len2 rest⟩
  | .apciI len q r spare rest, _ => ⟨_, exec_apciI len q r spare rest⟩
  | .apciS len high r spare rest, _ => ⟨_, exec_apciS len high r spare rest⟩
  | .apciU len code f2 rest, _ => ⟨_, exec_apciU len code f2 rest⟩
  | .apciUStartdtAct len f2 rest, _ => ⟨_, exec_apciUStartdtAct len f2 rest⟩
  | .apciUStartdtCon len f2 rest, _ => ⟨_, exec_apciUStartdtCon len f2 rest⟩
  | .apciUStopdtAct len f2 rest, _ => ⟨_, exec_apciUStopdtAct len f2 rest⟩
  | .apciUStopdtCon len f2 rest, _ => ⟨_, exec_apciUStopdtCon len f2 rest⟩
  | .apciUTestfrAct len f2 rest, _ => ⟨_, exec_apciUTestfrAct len f2 rest⟩
  | .apciUTestfrCon len f2 rest, _ => ⟨_, exec_apciUTestfrCon len f2 rest⟩

/-- What an instruction can do to `ACC` (R29). -/
theorem exec_acc_cases {i : Instr} {s t : State} (h : exec i s = .next t) :
    (i.writesAcc = false ∧ t.acc = s.acc) ∨ (i = .reset ∧ t.acc = []) ∨
      ∃ bytes, i = .ft12Append bytes ∧ t.acc = (accAppend Config.accCap s.acc bytes).1 := by
  cases hw : i.writesAcc with
  | false =>
    obtain ⟨r, hexec⟩ := exec_of_not_writesAcc i hw
    obtain rfl := Host.Outcome.next.inj ((hexec s).symm.trans h)
    exact .inl ⟨rfl, rfl⟩
  | true =>
    obtain rfl | ⟨bytes, rfl⟩ := (writesAcc_iff i).1 hw
    · obtain rfl := Host.Outcome.next.inj ((exec_reset s).symm.trans h)
      exact .inr (.inl ⟨rfl, rfl⟩)
    · obtain rfl := Host.Outcome.next.inj ((exec_ft12Append bytes s).symm.trans h)
      exact .inr (.inr ⟨bytes, rfl, rfl⟩)

/-! `ACC` within its capacity. -/

theorem accWithinCap_of_acc_eq_nil {s : State} (h : s.acc = []) : s.AccWithinCap := by
  intro c _
  simp [h]

/-- An append that does not fit leaves the content as it was; one that fits leaves at most all the bytes (R67, R70). -/
theorem accAppend_acc_length_le {c : Nat} (hcap : Config.accCap = some c) {acc : List Byte} (hacc : acc.length ≤ c)
    (bytes : List Byte) : (accAppend Config.accCap acc bytes).1.length ≤ c := by
  obtain ⟨-, happend⟩ | ⟨hfits, hcases⟩ := accAppend_cases Config.accCap acc bytes
  · rw [happend]; exact hacc
  · have hsum : (acc ++ bytes).length ≤ c := by
      rw [List.length_append]; exact (capFits_accCap _).1 hfits c hcap
    obtain ⟨f, n, -, happend⟩ | ⟨-, happend⟩ | ⟨e, -, happend⟩ := hcases
    · rw [happend]; exact (List.drop_sublist n _).length_le.trans hsum
    · rw [happend]; exact hsum
    · rw [happend]; exact hsum

theorem exec_accWithinCap {i : Instr} {s t : State} (hs : s.AccWithinCap) (h : exec i s = .next t) :
    t.AccWithinCap := by
  intro c hcap
  obtain ⟨-, hacc⟩ | ⟨-, hacc⟩ | ⟨bytes, -, hacc⟩ := exec_acc_cases h
  · rw [hacc]; exact hs c hcap
  · exact accWithinCap_of_acc_eq_nil hacc c hcap
  · rw [hacc]; exact accAppend_acc_length_le hcap (hs c hcap) bytes

end Sys2Proof.Machine
end

section
/-! The state and reset (10_state.md): the invariant of `ACC`, the stateless instructions, and the state after reset. -/

namespace Sys2Proof
open Machine

/-- Settles O8, by the three things a step can do: an idle step keeps `ACC`, an assertion of reset empties it, and an
instruction keeps it, empties it or appends no more than fits. -/
theorem stepKeepsAccWithinCapacity : Obligations.StepKeepsAccWithinCapacity := by
  intro s t hs hstep
  obtain ⟨-, rfl⟩ | ⟨rest, -, rfl⟩ | ⟨_, rest, i, -, -, hexec⟩ := step_cases hstep
  · exact hs
  · exact accWithinCap_of_acc_eq_nil rfl
  · have htaken : State.AccWithinCap { s with pending := rest } := hs
    exact exec_accWithinCap htaken hexec

/-- Settles O1: an asserted reset and the operation RESET are each one equation, and their `ACC` and `pending` agree. -/
theorem resetEmptiesAcc : Obligations.ResetEmptiesAcc :=
  ⟨State.reset_acc, fun s rest hp => ⟨_, _, step_resetAsserted s rest hp, exec_reset _, rfl, rfl, rfl, rfl⟩⟩

/-- Settles O6: each instruction's equation gives its outcome from its operands alone. -/
theorem statelessInstructionsArePure : Obligations.StatelessInstructionsArePure := exec_of_not_writesAcc

/-- Settles O10: an empty `ACC` is within every capacity, and an absent outcome is legal. -/
theorem resetMeetsInvariants : Obligations.ResetMeetsInvariants :=
  ⟨accWithinCap_of_acc_eq_nil State.reset_acc, fun _ h => nomatch h⟩

end Sys2Proof
end

section
/-! SUPPORT. Slices of a byte sequence and its first bytes: how a buffer is cut into fields, and that its first bytes
read the same when the rest is cut off. -/

namespace Sys2Proof

theorem slice_cons_byteAt (b : List Byte) {i j : Nat} (hij : i < j) (hj : j ≤ b.length) :
    slice b i j = byteAt b i :: slice b (i + 1) j := by
  have hi : i < b.length := by omega
  have hcount : j - i = (j - (i + 1)) + 1 := by omega
  rw [slice, slice, byteAt_eq_getElem b i hi, List.drop_eq_getElem_cons hi, hcount, List.take_succ_cons]

theorem slice_append_slice (b : List Byte) {i j k : Nat} (hij : i ≤ j) (hjk : j ≤ k) :
    slice b i j ++ slice b j k = slice b i k := by
  have hcount : k - i = (j - i) + (k - j) := by omega
  have hdrop : b.drop j = (b.drop i).drop (j - i) := by rw [List.drop_drop, Nat.add_sub_cancel' hij]
  rw [slice, slice, slice, hcount, hdrop, ← List.take_add]

@[simp] theorem slice_self (b : List Byte) (i : Nat) : slice b i i = [] := by simp [slice]

theorem slice_take (b : List Byte) {i j n : Nat} (h : j ≤ n) : slice (b.take n) i j = slice b i j := by
  rw [slice, slice, List.drop_take, List.take_take, Nat.min_eq_left (by omega)]

theorem word16At_take (b : List Byte) {i n : Nat} (h : i + 1 < n) : word16At (b.take n) i = word16At b i := by
  rw [word16At, word16At, byteAt_take b i n (by omega), byteAt_take b (i + 1) n h]

theorem length_take_lt_iff (b : List Byte) {m n : Nat} (h : m ≤ n) : (b.take n).length < m ↔ b.length < m := by
  rw [List.length_take]; omega

/-- The two bytes of a field that was read from a buffer are the buffer's own (R21, R22). -/
theorem word16Bytes_word16At (b : List Byte) (i : Nat) :
    word16Bytes (word16At b i) = [byteAt b i, byteAt b (i + 1)] := by
  simp [word16Bytes, word16At]

end Sys2Proof
end

section
/-! SUPPORT. The FT1.2 wire image of a frame: it is what the encoder lays out (R40, R41), the parse accepts it with any
bytes after it, and the parse accepts nothing else. -/

namespace Sys2Proof

theorem loByte_eq_ofNat (v : Word16) : loByte v = BitVec.ofNat 8 (v.toNat % 256) := by
  apply BitVec.eq_of_toNat_eq
  simp [loByte]

theorem hiByte_eq_ofNat (v : Word16) : hiByte v = BitVec.ofNat 8 (v.toNat / 256) := by
  apply BitVec.eq_of_toNat_eq
  simp [hiByte, Nat.shiftRight_eq_div_pow]

theorem sumMod256_eq_checksum (bs : List Byte) : sumMod256 bs = checksum bs := by
  apply BitVec.eq_of_toNat_eq
  simp [sumMod256, checksum, byteSum_eq_sum]

namespace Machine

theorem ft12Counted_eq_body (f : Ft12Frame) : ft12Counted f = ft12Body f := by
  simp [ft12Counted, ft12Body, word16Bytes, loByte_eq_ofNat, hiByte_eq_ofNat]

/-- The image that R40 and R41 prescribe is the layout `FT12.ENCODE` writes. -/
theorem ft12Image_eq_wireBytes (f : Ft12Frame) :
    ft12Image f = ft12WireBytes (ft12LenByte f.data) (ft12LenByte f.data)
      (ft12Body f ++ [checksum (ft12Body f), endByte]) := by
  rw [ft12Image, sumMod256_eq_checksum, ft12Counted_eq_body]
  rfl

theorem ft12Image_length (f : Ft12Frame) : (ft12Image f).length = f.data.length + 9 := by
  simp [ft12Image_eq_wireBytes]

theorem ft12LenByte_toNat {data : List Byte} (h : data.length ≤ 252) : (ft12LenByte data).toNat = data.length + 3 := by
  simp [ft12LenByte, ft12LenMin]; omega

/-! The fields of a laid-out frame (R40). -/

theorem byteAt_ft12WireBytes (len len2 : Byte) (rest : List Byte) (i : Nat) :
    byteAt (ft12WireBytes len len2 rest) (i + 4) = byteAt rest i := rfl

theorem word16At_ft12WireBytes (len len2 : Byte) (rest : List Byte) (i : Nat) :
    word16At (ft12WireBytes len len2 rest) (i + 4) = word16At rest i := rfl

theorem slice_ft12WireBytes (len len2 : Byte) (rest : List Byte) (i j : Nat) :
    slice (ft12WireBytes len len2 rest) (i + 4) (j + 4) = slice rest i j := by
  simp [ft12WireBytes]

theorem byteAt_control (f : Ft12Frame) (rest : List Byte) : byteAt (ft12Body f ++ rest) 0 = f.control := rfl

theorem word16At_address (f : Ft12Frame) (rest : List Byte) : word16At (ft12Body f ++ rest) 1 = f.address := by
  simp [word16At, ft12Body, word16Bytes]

theorem slice_data (f : Ft12Frame) (rest : List Byte) :
    slice (ft12Body f ++ rest) 3 (ft12Body f).length = f.data := by
  simp [ft12Body, word16Bytes]

/-- Bytes laid out as R40 says, under the checksum of R41 and with any bytes after them, are accepted (R63, R64). -/
theorem ft12TryParse_wireBytes (f : Ft12Frame) (len : Byte) (hlen : len.toNat = f.data.length + 3) (tail : List Byte) :
    ft12TryParse (ft12WireBytes len len (ft12Body f ++ checksum (ft12Body f) :: endByte :: tail)) =
      .ok f (f.data.length + 9) := by
  let rest := checksum (ft12Body f) :: endByte :: tail
  let buf := ft12WireBytes len len (ft12Body f ++ rest)
  have hL : (byteAt buf 1).toNat = (ft12Body f).length := by rw [ft12Body_length]; exact hlen
  have hcounted : slice buf 4 (4 + (ft12Body f).length) = ft12Body f := by
    rw [Nat.add_comm, slice_ft12WireBytes _ _ _ 0, slice_zero, List.take_left]
  have hcs : byteAt buf (4 + (ft12Body f).length) = checksum (ft12Body f) := by
    rw [Nat.add_comm, byteAt_ft12WireBytes]; exact byteAt_append_right _ rest 0
  have hend : byteAt buf (5 + (ft12Body f).length) = endByte := by
    rw [Nat.add_comm, byteAt_ft12WireBytes _ _ _ (_ + 1)]; exact byteAt_append_right _ rest 1
  have hdata : slice buf 7 (4 + (ft12Body f).length) = f.data := by
    rw [Nat.add_comm, slice_ft12WireBytes _ _ _ 3, slice_data]
  have haccept := ft12TryParse_accept (buf := buf) (by simp [hL, buf, rest]; omega) rfl rfl rfl (by simp [hL])
    (by rw [hL, hcs, hcounted]) (by rw [hL, hend])
  rwa [hL, hdata, byteAt_ft12WireBytes _ _ _ 0, word16At_ft12WireBytes _ _ _ 1, byteAt_control, word16At_address,
    ft12Body_length] at haccept

/-- The image of a frame within the data limit is accepted at the head of any bytes (R64, R66). -/
theorem ft12TryParse_image {f : Ft12Frame} (h : f.data.length ≤ 252) (tail : List Byte) :
    ft12TryParse (ft12Image f ++ tail) = .ok f (ft12Image f).length := by
  rw [ft12Image_length, ← ft12TryParse_wireBytes f _ (ft12LenByte_toNat h) tail, ft12Image_eq_wireBytes]
  simp [ft12WireBytes]

/-- What the parse accepts is the image of the frame it answers (R63, R66). -/
theorem take_eq_image_of_ft12TryParse_ok {buf : List Byte} {f : Ft12Frame} {c : Nat} (h : ft12TryParse buf = .ok f c) :
    buf.take c = ft12Image f := by
  obtain ⟨hlen, h0, h3, h2, hmin, hcs, hend, hf, hc⟩ := ft12TryParse_ok h
  generalize hL : (byteAt buf 1).toNat = len at *
  have hdata : f.data.length = len - 3 := by rw [hf]; exact (slice_length buf 7 (4 + len) (by omega)).trans (by omega)
  have hlenByte : ft12LenByte f.data = byteAt buf 1 := by
    apply BitVec.eq_of_toNat_eq
    rw [ft12LenByte_toNat (by have := byteAt_toNat_le buf 1; omega)]; omega
  have hbody : slice buf 4 (4 + len) = ft12Body f := by
    rw [slice_cons_byteAt buf (by omega) (by omega), slice_cons_byteAt buf (by omega) (by omega),
      slice_cons_byteAt buf (by omega) (by omega), ft12Body, hf, word16Bytes_word16At]
    rfl
  have htrailer : slice buf (4 + len) (6 + len) = [checksum (ft12Body f), endByte] := by
    rw [slice_cons_byteAt buf (by omega) (by omega), slice_cons_byteAt buf (by omega) (by omega), ← hbody, ← hcs,
      ← hend, Nat.add_right_comm 4 len 1, Nat.add_right_comm 5 len 1, slice_self]
  calc buf.take c = slice buf 0 (6 + len) := by rw [slice_zero, hc, Nat.add_comm]
    _ = ft12WireBytes (byteAt buf 1) (byteAt buf 1) (slice buf 4 (6 + len)) := by
        rw [slice_cons_byteAt buf (by omega) (by omega), slice_cons_byteAt buf (by omega) (by omega),
          slice_cons_byteAt buf (by omega) (by omega), slice_cons_byteAt buf (by omega) (by omega), h0, h2, h3]
        rfl
    _ = ft12Image f := by
        rw [← slice_append_slice buf (j := 4 + len) (by omega) (by omega), hbody, htrailer,
          ft12Image_eq_wireBytes, hlenByte]

/-- A buffer the parse accepts is the image of the answered frame and the bytes after the consumed ones (R26, R64). -/
theorem eq_image_append_of_ft12TryParse_ok {buf : List Byte} {f : Ft12Frame} {c : Nat}
    (h : ft12TryParse buf = .ok f c) : buf = ft12Image f ++ buf.drop c := by
  rw [← take_eq_image_of_ft12TryParse_ok h, List.take_append_drop]

end Machine
end Sys2Proof
end

section
/-! SUPPORT. A parse reads its first `LEN + 6` or `LEN + 2` bytes only (R27), and what an accepting parse leaves as the
outcome. -/

namespace Sys2Proof.Machine

theorem ft12TryParse_take (buf : List Byte) :
    ft12TryParse (buf.take ((byteAt buf 1).toNat + ft12Overhead)) = ft12TryParse buf := by
  have hover : ft12Overhead = 6 := rfl
  have hthree : ft12LenMin = 3 := rfl
  simp (disch := omega) only [ft12TryParse, byteAt_take, slice_take, length_take_lt_iff]
  by_cases hmin : (byteAt buf 1).toNat < ft12LenMin
  · simp only [if_pos hmin]
  · rw [word16At_take buf (by omega)]

/-- The control words lie within `LEN + 2` bytes once LEN has passed its check (R45, R87). -/
theorem apciFrameOf_take (buf : List Byte) {len : Nat} (h : 4 ≤ len) :
    apciFrameOf (buf.take (len + apciOverhead)) len = apciFrameOf buf len := by
  have hover : apciOverhead = 2 := rfl
  simp (disch := omega) only [apciFrameOf, word16At_take, slice_take]

theorem apciTryParse_take (buf : List Byte) :
    apciTryParse (buf.take ((byteAt buf 1).toNat + apciOverhead)) = apciTryParse buf := by
  have hover : apciOverhead = 2 := rfl
  simp (disch := omega) only [apciTryParse, byteAt_take, length_take_lt_iff]
  by_cases hmin : (byteAt buf 1).toNat < apciLenMin
  · simp only [if_pos hmin]
  · rw [apciFrameOf_take buf (Nat.not_lt.mp hmin)]

theorem Parse.toResult_eq_ok {α : Type} {attach : α → Nat → Payload} {p : Parse α} {q : Payload} :
    p.toResult attach = .ok q ↔ ∃ f c, p = .ok f c ∧ attach f c = q := by
  cases p <;> simp [Parse.toResult]

theorem answering_next_inj {s : State} {q r : Result} :
    Host.Outcome.next (φ := Fault) (ρ := Refusal) (s.answering q) = .next (s.answering r) ↔ q = r := by
  simp [State.answering]

end Sys2Proof.Machine
end

section
/-! SUPPORT. What an append delivers (R67, R69), and what an instruction leaves pending. -/

namespace Sys2Proof.Machine

/-- An append whose bytes fit and complete the frame at the head delivers it and leaves what follows (R67). -/
theorem exec_ft12Append_delivers {s : State} {bytes tail : List Byte} {f : Ft12Frame} (hf : f.data.length ≤ 252)
    (hfits : ∀ cap, Config.accCap = some cap → s.acc.length + bytes.length ≤ cap)
    (hacc : s.acc ++ bytes = ft12Image f ++ tail) :
    exec (.ft12Append bytes) s = .next { s with acc := tail, outcome := some (.ok (.ft12 f)) } := by
  rw [exec_ft12Append, accAppend, (capFits_accCap _).2 hfits, hacc, ft12TryParse_image hf]
  simp

/-- An append of no bytes, pending first, delivers the frame at the head of `ACC` (R69). -/
theorem step_emptyAppend {s : State} {rest : List Input} {f : Ft12Frame} {tail : List Byte}
    (hf : f.data.length ≤ 252) (hcap : s.AccWithinCap) (hacc : s.acc = ft12Image f ++ tail)
    (hp : s.pending = .request (.operation 0x3 []) :: rest) :
    step s = .next { acc := tail, pending := rest, outcome := some (.ok (.ft12 f)) } := by
  rw [step_decoded s _ rest (.ft12Append []) hp (by decide)]
  exact exec_ft12Append_delivers hf hcap (by simpa using hacc)

theorem exec_pending {i : Instr} {s t : State} (h : exec i s = .next t) : t.pending = s.pending := by
  obtain ⟨acc, r, hexec, -⟩ := exec_answers_legal i s
  obtain rfl := Host.Outcome.next.inj (hexec.symm.trans h)
  rfl

/-- An append that answers a frame has accepted it at the head of the content and dropped its bytes (R26, R67). -/
theorem accAppend_delivered {cap : Option Nat} {acc bytes : List Byte} {f : Ft12Frame}
    (h : (accAppend cap acc bytes).2 = .ok (.ft12 f)) :
    ∃ c, ft12TryParse (acc ++ bytes) = .ok f c ∧ (accAppend cap acc bytes).1 = (acc ++ bytes).drop c := by
  obtain ⟨-, happend⟩ | ⟨-, ⟨g, c, hparse, happend⟩ | ⟨-, happend⟩ | ⟨c, -, happend⟩⟩ :=
    accAppend_cases cap acc bytes
  · rw [happend] at h; cases h
  · rw [happend] at h ⊢; cases h; exact ⟨c, hparse, rfl⟩
  · rw [happend] at h; cases h
  · rw [happend] at h; cases h

/-- An append overflows exactly beyond a capacity that exists (R5, R70). -/
theorem capFits_accCap_eq_false (n : Nat) :
    capFits Config.accCap n = false ↔ ∃ c, Config.accCap = some c ∧ c < n := by
  rw [← Bool.not_eq_true, capFits_accCap]
  simp

end Sys2Proof.Machine
end

section
/-! The memory of the block (20_memory.md): who writes `ACC`, what a parse reads, where a frame is found, and the order in
which inputs and frames are taken. -/

namespace Sys2Proof
open Machine

/-- Settles O7, by who writes `ACC`; for an append, by the capacity and the parse's answer. -/
theorem accWrittenInThreeWaysOnly : Obligations.AccWrittenInThreeWaysOnly := by
  intro i s t h
  obtain hkept | hreset | ⟨bytes, rfl, -⟩ := exec_acc_cases h
  · exact .inl hkept
  · exact .inr (.inl hreset)
  refine .inr (.inr ⟨bytes, rfl, ?_⟩)
  obtain rfl := Host.Outcome.next.inj ((exec_ft12Append bytes s).symm.trans h)
  obtain ⟨hover, happend⟩ | ⟨hfits, hcases⟩ := accAppend_cases Config.accCap s.acc bytes
  · obtain ⟨cap, hcap, hlt⟩ := (capFits_accCap_eq_false _).1 hover
    exact .inl ⟨cap, hcap, hlt, by rw [happend], by rw [happend]⟩
  · refine .inr ⟨(capFits_accCap _).1 hfits, ?_⟩
    obtain ⟨f, c, hparse, happend⟩ | ⟨hparse, happend⟩ | ⟨c, hparse, happend⟩ := hcases
    · exact .inl ⟨f, c, hparse, by rw [happend], by rw [happend]⟩
    · exact .inr (.inl ⟨hparse, by rw [happend], by rw [happend]⟩)
    · exact .inr (.inr ⟨c, hparse, by rw [happend], by rw [happend]⟩)

/-- Settles O30: each parse is unchanged when its buffer is cut after the frame, and an accepting one answers that
length. -/
theorem parsesReadOnlyTheirFrame : Obligations.ParsesReadOnlyTheirFrame := by
  refine fun buf s => ⟨?_, ?_, fun f c h => ?_, fun f c h => ?_⟩
  · rw [exec_ft12TryParse, ← ft12TryParse_take]; rfl
  · rw [exec_apciTryParse, ← apciTryParse_take]; rfl
  · rw [exec_ft12TryParse, answering_next_inj, Parse.toResult_eq_ok] at h
    obtain ⟨_, _, hparse, ⟨⟩⟩ := h
    obtain ⟨-, -, -, -, -, -, -, -, hc⟩ := ft12TryParse_ok hparse
    exact hc
  · rw [exec_apciTryParse, answering_next_inj, Parse.toResult_eq_ok] at h
    obtain ⟨_, _, hparse, ⟨⟩⟩ := h
    obtain ⟨-, -, -, -, hc⟩ := (apciTryParse_ok _ _ _).1 hparse
    exact hc

/-- Settles O39: what the parse accepts is the frame's image at the head, and both parses check the first byte. -/
theorem framesAreFoundOnlyAtTheHead : Obligations.FramesAreFoundOnlyAtTheHead := by
  constructor
  · intro s t bytes f h hout
    obtain rfl := Host.Outcome.next.inj ((exec_ft12Append bytes s).symm.trans h)
    obtain ⟨c, hparse, hacc⟩ := accAppend_delivered (Option.some.inj hout)
    exact (eq_image_append_of_ft12TryParse_ok hparse).trans (by rw [hacc])
  · rintro buf s t p hstart (h | h) hout
    · obtain rfl := Host.Outcome.next.inj ((exec_ft12TryParse buf s).symm.trans h)
      obtain ⟨f, c, hparse, -⟩ := Parse.toResult_eq_ok.1 (Option.some.inj hout)
      obtain ⟨-, hfirst, -⟩ := ft12TryParse_ok hparse
      exact hstart hfirst
    · obtain rfl := Host.Outcome.next.inj ((exec_apciTryParse buf s).symm.trans h)
      obtain ⟨f, c, hparse, -⟩ := Parse.toResult_eq_ok.1 (Option.some.inj hout)
      obtain ⟨hfirst, -⟩ := (apciTryParse_ok buf f c).1 hparse
      exact hstart hfirst

/-- Settles O41, by induction on the frames: the first step delivers the head frame and leaves the same situation for the
frames after it. -/
theorem framesAreDeliveredInArrivalOrder : Obligations.FramesAreDeliveredInArrivalOrder := by
  intro fs tail
  induction fs with
  | nil => exact fun _ _ _ _ _ _ _ hk => nomatch hk
  | cons f fs ih =>
    intro s rest hdata hcap hacc hpending k hk
    obtain ⟨hf, hfs⟩ := List.forall_mem_cons.1 hdata
    have hstep := step_emptyAppend hf hcap (by simpa using hacc) hpending
    rw [core_run_succ k hstep]
    cases k with
    | zero => exact ⟨_, core_run_zero _, rfl, rfl⟩
    | succ k => exact ih _ rest hfs (stepKeepsAccWithinCapacity _ _ hcap hstep) rfl rfl k (Nat.lt_of_succ_lt_succ hk)

/-- Settles O2: the step's equations for a decoded request and for nothing pending. -/
theorem stepRunsDecodedRequest : Obligations.StepRunsDecodedRequest := ⟨step_decoded, step_idle⟩

/-- Settles O3, by the three things a step can do; an instruction leaves the inputs behind its request in place. -/
theorem stepTakesInputsInOrder : Obligations.StepTakesInputsInOrder := by
  intro s t h
  obtain ⟨hp, rfl⟩ | ⟨rest, hp, rfl⟩ | ⟨_, rest, i, hp, -, hexec⟩ := step_cases h
  · rw [hp]; rfl
  · rw [hp]; rfl
  · rw [exec_pending hexec, hp]; rfl

end Sys2Proof
end

section
/-! SUPPORT. The decoder said once: what each select and each first control word decodes to, and that the encoder undoes
it. -/

namespace Sys2Proof

/-! Operations (R54): the nine selects, and the operand forms read and written back (log entry 4). -/

/-- Every select is one of the eight operations' or a reserved one (R54). -/
theorem opSelect_cases : ∀ op : BitVec 4, opIsReserved op = true ∨ op = opReset ∨ op = opFt12Encode ∨
    op = opFt12TryParse ∨ op = opFt12Append ∨ op = opApciEncI ∨ op = opApciEncS ∨ op = opApciEncU ∨
    op = opApciTryParse := by
  decide

theorem decodeOperation_reserved {op : BitVec 4} (h : opIsReserved op = true) (operands : List Byte) :
    decodeOperation op operands = .ok (.opReserved op operands) := if_pos h

theorem seqOperandBytes_of_seqOperand {lo hi : Byte} {q : Seq15} (h : seqOperand lo hi = some q) :
    seqOperandBytes q = [lo, hi] := by
  rw [seqOperand, Option.ite_none_right_eq_some] at h
  obtain ⟨hlt, ⟨⟩⟩ := h
  have hwide : (((word16 lo hi).setWidth 15).setWidth 16 : Word16) = word16 lo hi :=
    BitVec.eq_of_toNat_eq (by simp; omega)
  simp [seqOperandBytes, word16Bytes, hwide]

theorem decodeApciEncI_seqOperandBytes (q r : Seq15) (payload : List Byte) :
    decodeApciEncI (seqOperandBytes q ++ seqOperandBytes r ++ payload) = .ok (.apciEncI q r payload) := by
  simp [seqOperandBytes, word16Bytes, decodeApciEncI, seqOperand_of_bytes]

theorem decodeApciEncS_seqOperandBytes (r : Seq15) : decodeApciEncS (seqOperandBytes r) = .ok (.apciEncS r) := by
  simp [seqOperandBytes, word16Bytes, decodeApciEncS, seqOperand_of_bytes]

theorem decodeNoOperands_ok {i j : Instr} {operands : List Byte} (h : decodeNoOperands i operands = .ok j) :
    operands = [] ∧ j = i := by
  cases operands with
  | nil => exact ⟨rfl, (Except.ok.inj h).symm⟩
  | cons => cases h

theorem decodeFt12Encode_ok {operands : List Byte} {i : Instr} (h : decodeFt12Encode operands = .ok i) :
    ∃ f, i = .ft12Encode f ∧ operands = f.control :: (word16Bytes f.address ++ f.data) := by
  unfold decodeFt12Encode at h
  split at h
  · exact ⟨_, (Except.ok.inj h).symm, by simp [word16Bytes]⟩
  · cases h

theorem decodeApciEncI_ok {operands : List Byte} {i : Instr} (h : decodeApciEncI operands = .ok i) :
    ∃ q r payload, i = .apciEncI q r payload ∧ operands = seqOperandBytes q ++ seqOperandBytes r ++ payload := by
  unfold decodeApciEncI at h
  split at h
  · split at h
    next q r hq hr =>
      exact ⟨q, r, _, (Except.ok.inj h).symm,
        by simp [seqOperandBytes_of_seqOperand hq, seqOperandBytes_of_seqOperand hr]⟩
    next => cases h
  · cases h

theorem decodeApciEncS_ok {operands : List Byte} {i : Instr} (h : decodeApciEncS operands = .ok i) :
    ∃ r, i = .apciEncS r ∧ operands = seqOperandBytes r := by
  unfold decodeApciEncS at h
  split at h
  · split at h
    next r hr => exact ⟨r, (Except.ok.inj h).symm, (seqOperandBytes_of_seqOperand hr).symm⟩
    next => cases h
  · cases h
  · cases h

theorem decodeApciEncU_ok {operands : List Byte} {i : Instr} (h : decodeApciEncU operands = .ok i) :
    ∃ code, i = .apciEncU code ∧ operands = word16Bytes code := by
  unfold decodeApciEncU at h
  split at h
  · exact ⟨_, (Except.ok.inj h).symm, by simp [word16Bytes]⟩
  · cases h
  · cases h

/-- What an operation request decodes to is well formed, and is written back (R54; log entry 4). -/
theorem encode_of_decodeOperation {op : BitVec 4} {operands : List Byte} {i : Instr}
    (h : decodeOperation op operands = .ok i) : i.wellFormed = true ∧ encode i = .operation op operands := by
  obtain hr | rfl | rfl | rfl | rfl | rfl | rfl | rfl | rfl := opSelect_cases op
  · obtain rfl := Except.ok.inj ((decodeOperation_reserved hr operands).symm.trans h)
    exact ⟨hr, rfl⟩
  · obtain ⟨rfl, rfl⟩ := decodeNoOperands_ok h
    exact ⟨rfl, rfl⟩
  · obtain ⟨f, rfl, rfl⟩ := decodeFt12Encode_ok h
    exact ⟨rfl, rfl⟩
  · obtain rfl := Except.ok.inj h
    exact ⟨rfl, rfl⟩
  · obtain rfl := Except.ok.inj h
    exact ⟨rfl, rfl⟩
  · obtain ⟨q, r, payload, rfl, rfl⟩ := decodeApciEncI_ok h
    exact ⟨rfl, rfl⟩
  · obtain ⟨r, rfl, rfl⟩ := decodeApciEncS_ok h
    exact ⟨rfl, rfl⟩
  · obtain ⟨code, rfl, rfl⟩ := decodeApciEncU_ok h
    exact ⟨rfl, rfl⟩
  · obtain rfl := Except.ok.inj h
    exact ⟨rfl, rfl⟩

/-! The kind of an APCI frame by its first control word (R48, R49). -/

theorem isNamedCode_iff (code : Word16) : isNamedCode code = true ↔ code = codeStartdtAct ∨ code = codeStartdtCon ∨
    code = codeStopdtAct ∨ code = codeStopdtCon ∨ code = codeTestfrAct ∨ code = codeTestfrCon := by
  simp [isNamedCode, or_assoc]

/-- A first control word is an I word, an S word, a named U code or another U code. -/
theorem controlWord_cases (f1 : Word16) : f1.toNat % 2 = 0 ∨ f1.toNat % 4 = 1 ∨ isNamedCode f1 = true ∨
    (isUCode f1 = true ∧ isNamedCode f1 = false) := by
  by_cases hn : isNamedCode f1 = true
  · exact .inr (.inr (.inl hn))
  · have hmod : f1.toNat % 2 = 0 ∨ f1.toNat % 4 = 1 ∨ f1.toNat % 4 = 3 := by omega
    simpa [isUCode_iff, hn] using hmod

theorem apciKind_of_even {f1 : Word16} (h : f1.toNat % 2 = 0) (len : Byte) (f2 : Word16) (rest : List Byte) :
    apciKind len f1 f2 rest = .apciI len (seqOf f1) (seqOf f2) (f2.setWidth 1) rest :=
  if_pos ((and_one_eq_zero_iff f1).2 h)

theorem apciKind_of_mod_four_eq_one {f1 : Word16} (h : f1.toNat % 4 = 1) (len : Byte) (f2 : Word16)
    (rest : List Byte) :
    apciKind len f1 f2 rest = .apciS len ((f1 >>> 2).setWidth 14) (seqOf f2) (f2.setWidth 1) rest := by
  have hodd : ¬ f1.toNat % 2 = 0 := by omega
  rw [apciKind, if_neg (mt (and_one_eq_zero_iff f1).1 hodd), if_pos ((and_three_eq_one_iff f1).2 h)]

theorem apciKind_of_unnamed {f1 : Word16} (hu : isUCode f1 = true) (hn : isNamedCode f1 = false) (len : Byte)
    (f2 : Word16) (rest : List Byte) : apciKind len f1 f2 rest = .apciU len f1 f2 rest := by
  rw [isUCode_iff] at hu
  have hodd : ¬ f1.toNat % 2 = 0 := by omega
  have hone : ¬ f1.toNat % 4 = 1 := by omega
  simp only [← Bool.not_eq_true, isNamedCode_iff, not_or] at hn
  simp [apciKind, and_one_eq_zero_iff, and_three_eq_one_iff, hodd, hone, hn]

/-- The kind of an APCI frame is well formed and is written back to the frame's bytes (R45, R48, R49). -/
theorem encode_apciKind (len : Byte) (f1 f2 : Word16) (rest : List Byte) :
    (apciKind len f1 f2 rest).wellFormed = true ∧
      encode (apciKind len f1 f2 rest) = .apciWire (apciWireBytes len f1 f2 rest) := by
  obtain heven | hone | hnamed | ⟨hu, hn⟩ := controlWord_cases f1
  · have hbit : f1.setWidth 1 = 0#1 := BitVec.eq_of_toNat_eq (by simpa using heven)
    have hword : seqWord (seqOf f1) 0#1 = f1 := by rw [← hbit, seqWord_seqOf]
    rw [apciKind_of_even heven]
    exact ⟨rfl, by rw [encode, hword, seqWord_seqOf]⟩
  · rw [apciKind_of_mod_four_eq_one hone]
    exact ⟨rfl, by rw [encode, sWord_of_high f1 hone, seqWord_seqOf]⟩
  · obtain rfl | rfl | rfl | rfl | rfl | rfl := (isNamedCode_iff f1).1 hnamed <;> exact ⟨rfl, rfl⟩
  · rw [apciKind_of_unnamed hu hn]
    exact ⟨by simp [Instr.wellFormed, hu, hn], rfl⟩

theorem decode_apciWireBytes (len : Byte) (f1 f2 : Word16) (rest : List Byte) :
    decode (.apciWire (apciWireBytes len f1 f2 rest)) = .ok (apciKind len f1 f2 rest) := by
  simp [decode, decodeApciWire, apciWireBytes]

theorem decode_encode : ∀ i : Instr, i.wellFormed = true → decode (encode i) = .ok i
  | .reset, _ => rfl
  | .ft12Encode f, _ =>
    congrArg (fun a => Except.ok (Instr.ft12Encode ⟨f.control, a, f.data⟩)) (word16_loByte_hiByte f.address)
  | .ft12TryParse _, _ => rfl
  | .ft12Append _, _ => rfl
  | .apciEncI q r payload, _ => decodeApciEncI_seqOperandBytes q r payload
  | .apciEncS r, _ => decodeApciEncS_seqOperandBytes r
  | .apciEncU code, _ => congrArg (fun c => Except.ok (Instr.apciEncU c)) (word16_loByte_hiByte code)
  | .apciTryParse _, _ => rfl
  | .opReserved _ operands, h => decodeOperation_reserved h operands
  | .ft12Frame _ _ _, _ => rfl
  | .apciI len q r spare rest, _ => by
    have heven : (seqWord q 0#1).toNat % 2 = 0 := by simp [seqWord_toNat]
    rw [encode, decode_apciWireBytes, apciKind_of_even heven]
    simp
  | .apciS len high r spare rest, _ => by
    have hone : (sWord high).toNat % 4 = 1 := by rw [sWord_toNat]; omega
    rw [encode, decode_apciWireBytes, apciKind_of_mod_four_eq_one hone]
    simp [sWord_high]
  | .apciU len code f2 rest, h => by
    simp only [Instr.wellFormed, Bool.and_eq_true, Bool.not_eq_true'] at h
    obtain ⟨hu, hn⟩ := h
    rw [encode, decode_apciWireBytes, apciKind_of_unnamed hu hn]
  | .apciUStartdtAct _ _ _, _ | .apciUStartdtCon _ _ _, _ | .apciUStopdtAct _ _ _, _ | .apciUStopdtCon _ _ _, _
  | .apciUTestfrAct _ _ _, _ | .apciUTestfrCon _ _ _, _ => decode_apciWireBytes _ _ _ _

end Sys2Proof
end

section
/-! SUPPORT. The opcode table (R56): which requests each row describes, and that the decoder follows the row. -/

namespace Sys2Proof

/-- An instruction's row describes the request its encoder writes. -/
theorem rowOf_describes_encode : ∀ i : Instr, i.wellFormed = true → (rowOf i).describes (encode i) = true
  | .reset => Laws.EncodeMatchesRow.reset
  | .ft12Encode f => Laws.EncodeMatchesRow.ft12Encode f
  | .ft12TryParse buf => Laws.EncodeMatchesRow.ft12TryParse buf
  | .ft12Append bytes => Laws.EncodeMatchesRow.ft12Append bytes
  | .apciEncI q r payload => Laws.EncodeMatchesRow.apciEncI q r payload
  | .apciEncS r => Laws.EncodeMatchesRow.apciEncS r
  | .apciEncU code => Laws.EncodeMatchesRow.apciEncU code
  | .apciTryParse buf => Laws.EncodeMatchesRow.apciTryParse buf
  | .opReserved op operands => Laws.EncodeMatchesRow.opReserved op operands
  | .ft12Frame len len2 rest => Laws.EncodeMatchesRow.ft12Frame len len2 rest
  | .apciI len q r spare rest => Laws.EncodeMatchesRow.apciI len q r spare rest
  | .apciS len high r spare rest => Laws.EncodeMatchesRow.apciS len high r spare rest
  | .apciU len code f2 rest => Laws.EncodeMatchesRow.apciU len code f2 rest
  | .apciUStartdtAct len f2 rest => Laws.EncodeMatchesRow.apciUStartdtAct len f2 rest
  | .apciUStartdtCon len f2 rest => Laws.EncodeMatchesRow.apciUStartdtCon len f2 rest
  | .apciUStopdtAct len f2 rest => Laws.EncodeMatchesRow.apciUStopdtAct len f2 rest
  | .apciUStopdtCon len f2 rest => Laws.EncodeMatchesRow.apciUStopdtCon len f2 rest
  | .apciUTestfrAct len f2 rest => Laws.EncodeMatchesRow.apciUTestfrAct len f2 rest
  | .apciUTestfrCon len f2 rest => Laws.EncodeMatchesRow.apciUTestfrCon len f2 rest

/-! Operation rows. -/

/-- The one operation row of a select (R54): the reserved selects share a row that tests bit 2 alone. -/
def opRow (op : BitVec 4) : TableRow := if opIsReserved op then .op 0x4 0x4 else .op op 0xF

theorem op_describes_iff (pattern mask sel : BitVec 4) (operands : List Byte) :
    (TableRow.op pattern mask).describes (.operation sel operands) = true ↔ sel &&& mask = pattern := beq_iff_eq

theorem eq_of_op_describes {pattern op : BitVec 4} {operands : List Byte}
    (h : (TableRow.op pattern 0xF).describes (.operation op operands) = true) : op = pattern := by
  rw [op_describes_iff] at h
  rw [← h]
  exact (BitVec.and_allOnes (x := op)).symm

/-- The row of an instruction describes an operation only if it is the row of its select. -/
theorem rowOf_eq_opRow : ∀ {j : Instr} {op : BitVec 4} {operands : List Byte},
    (rowOf j).describes (.operation op operands) = true → rowOf j = opRow op
  | .opReserved _ _, op, operands, h => (if_pos (beq_iff_eq.2 ((op_describes_iff _ _ op operands).1 h))).symm
  | .reset, _, _, h | .ft12Encode _, _, _, h | .ft12TryParse _, _, _, h | .ft12Append _, _, _, h
  | .apciEncI _ _ _, _, _, h | .apciEncS _, _, _, h | .apciEncU _, _, _, h | .apciTryParse _, _, _, h => by
    obtain rfl := eq_of_op_describes h
    rfl

/-! Wire rows: a row fixes bytes, and bits of bytes, at the head of a frame. -/

theorem matchBytes_cons_iff (p m : Byte) (ps ms bs : List Byte) : matchBytes (p :: ps) (m :: ms) bs = true ↔
    ∃ b bs', bs = b :: bs' ∧ b &&& m = p ∧ matchBytes ps ms bs' = true := by
  cases bs <;> simp [matchBytes]

theorem byte_and_ff (b : Byte) : b &&& 0xFF = b := BitVec.and_allOnes

theorem rowFt12Frame_describes_iff (bs : List Byte) : rowFt12Frame.describes (.ft12Wire bs) = true ↔
    ∃ len len2 rest, bs = ft12WireBytes len len2 rest := by
  simp only [rowFt12Frame, TableRow.describes, matchBytes_cons_iff, byte_and_ff]
  constructor
  · rintro ⟨_, _, rfl, rfl, len, _, rfl, -, len2, _, rfl, -, _, rest, rfl, rfl, -⟩
    exact ⟨len, len2, rest, rfl⟩
  · rintro ⟨len, len2, rest, rfl⟩
    exact ⟨_, _, rfl, rfl, _, _, rfl, BitVec.and_zero, _, _, rfl, BitVec.and_zero, _, _, rfl, rfl, rfl⟩

/-- A row of the APCI wire fixes the start byte and tests bits of the first control word (R48, R49). -/
theorem apci_describes_iff (p1 p2 m1 m2 : Byte) (bs : List Byte) :
    (TableRow.apci [0x68, 0x00, p1, p2, 0x00, 0x00] [0xFF, 0x00, m1, m2, 0x00, 0x00]).describes (.apciWire bs) = true ↔
      ∃ len f1 f2 rest, bs = apciWireBytes len f1 f2 rest ∧ loByte f1 &&& m1 = p1 ∧ hiByte f1 &&& m2 = p2 := by
  simp only [TableRow.describes, matchBytes_cons_iff, byte_and_ff]
  constructor
  · rintro ⟨_, _, rfl, rfl, len, _, rfl, -, c1, _, rfl, h1, c2, _, rfl, h2, c3, _, rfl, -, c4, rest, rfl, -, -⟩
    exact ⟨len, word16 c1 c2, word16 c3 c4, rest, by simp [apciWireBytes, startByte], by simpa, by simpa⟩
  · rintro ⟨len, f1, f2, rest, rfl, h1, h2⟩
    exact ⟨_, _, rfl, rfl, _, _, rfl, BitVec.and_zero, _, _, rfl, h1, _, _, rfl, h2, _, _, rfl, BitVec.and_zero, _, _,
      rfl, BitVec.and_zero, rfl⟩

/-- A named row describes the frames whose first control word is its code (R56). -/
theorem exists_bytes_of_namedU_describes {ctrl1 : Byte} {bs : List Byte}
    (h : (rowNamedU ctrl1).describes (.apciWire bs) = true) :
    ∃ len f2 rest, bs = apciWireBytes len (word16 ctrl1 0) f2 rest := by
  obtain ⟨len, f1, f2, rest, rfl, h1, h2⟩ := (apci_describes_iff _ _ _ _ _).1 h
  rw [byte_and_ff] at h1 h2
  exact ⟨len, f2, rest, by rw [← h1, ← h2, word16_loByte_hiByte]⟩

theorem loByte_and_one_toNat (v : Word16) : (loByte v &&& 0x1).toNat = v.toNat % 2 := by
  rw [BitVec.toNat_and, loByte, BitVec.toNat_setWidth]
  exact (Nat.and_two_pow_sub_one_eq_mod _ 1).trans (by omega)

theorem loByte_and_three_toNat (v : Word16) : (loByte v &&& 0x3).toNat = v.toNat % 4 := by
  rw [BitVec.toNat_and, loByte, BitVec.toNat_setWidth]
  exact (Nat.and_two_pow_sub_one_eq_mod _ 2).trans (by omega)

/-- A row of an APCI frame is the row of the frame's kind, or the generic U row beside a named one (R48, R49, R56). -/
theorem rowOf_of_describes_apciWire : ∀ {j : Instr} {bs : List Byte}, (rowOf j).describes (.apciWire bs) = true →
    ∃ len f1 f2 rest, bs = apciWireBytes len f1 f2 rest ∧
      (rowOf j = rowOf (apciKind len f1 f2 rest) ∨ (rowOf j = rowApciU ∧ isNamedCode f1 = true))
  | .apciI _ _ _ _ _, bs, h => by
    obtain ⟨len, f1, f2, rest, rfl, h1, -⟩ := (apci_describes_iff _ _ _ _ _).1 h
    have heven : f1.toNat % 2 = 0 := by rw [← loByte_and_one_toNat, h1]; rfl
    exact ⟨len, f1, f2, rest, rfl, .inl (by rw [apciKind_of_even heven]; rfl)⟩
  | .apciS _ _ _ _ _, bs, h => by
    obtain ⟨len, f1, f2, rest, rfl, h1, -⟩ := (apci_describes_iff _ _ _ _ _).1 h
    have hone : f1.toNat % 4 = 1 := by rw [← loByte_and_three_toNat, h1]; rfl
    exact ⟨len, f1, f2, rest, rfl, .inl (by rw [apciKind_of_mod_four_eq_one hone]; rfl)⟩
  | .apciU _ _ _ _, bs, h => by
    obtain ⟨len, f1, f2, rest, rfl, h1, -⟩ := (apci_describes_iff _ _ _ _ _).1 h
    have hu : isUCode f1 = true := by rw [isUCode_iff, ← loByte_and_three_toNat, h1]; rfl
    refine ⟨len, f1, f2, rest, rfl, ?_⟩
    cases hn : isNamedCode f1 with
    | true => exact .inr ⟨rfl, rfl⟩
    | false => exact .inl (by rw [apciKind_of_unnamed hu hn]; rfl)
  | .apciUStartdtAct _ _ _, _, h | .apciUStartdtCon _ _ _, _, h | .apciUStopdtAct _ _ _, _, h
  | .apciUStopdtCon _ _ _, _, h | .apciUTestfrAct _ _ _, _, h | .apciUTestfrCon _ _ _, _, h => by
    obtain ⟨len, f2, rest, rfl⟩ := exists_bytes_of_namedU_describes h
    exact ⟨len, _, f2, rest, rfl, .inl rfl⟩

theorem rowOf_apciKind_of_named {f1 : Word16} (h : isNamedCode f1 = true) (len : Byte) (f2 : Word16)
    (rest : List Byte) : rowOf (apciKind len f1 f2 rest) = rowNamedU (loByte f1) := by
  obtain rfl | rfl | rfl | rfl | rfl | rfl := (isNamedCode_iff f1).1 h <;> rfl

theorem namedRow_mem {f1 : Word16} (h : isNamedCode f1 = true) : rowNamedU (loByte f1) ∈
    [rowNamedU 0x07, rowNamedU 0x0B, rowNamedU 0x13, rowNamedU 0x23, rowNamedU 0x43, rowNamedU 0x83] := by
  obtain rfl | rfl | rfl | rfl | rfl | rfl := (isNamedCode_iff f1).1 h <;> decide

/-- A row of an FT1.2 frame is the one row of that wire (R56). -/
theorem rowOf_of_describes_ft12Wire : ∀ {j : Instr} {bs : List Byte}, (rowOf j).describes (.ft12Wire bs) = true →
    rowOf j = rowFt12Frame
  | .ft12Frame _ _ _, _, _ => rfl

/-! What bytes on a wire decode to (R52, R53; log entry 5). -/

theorem decodeFt12Wire_cases (bs : List Byte) :
    (∃ len len2 rest, bs = ft12WireBytes len len2 rest ∧ decodeFt12Wire bs = .ft12Frame len len2 rest) ∨
    (decodeFt12Wire bs = .ft12TryParse bs ∧ ∀ len len2 rest, bs ≠ ft12WireBytes len len2 rest) := by
  unfold decodeFt12Wire
  split
  · next s1 len len2 s2 rest =>
    split
    · next h => exact .inl ⟨len, len2, rest, by simp [ft12WireBytes, h], rfl⟩
    · next h => exact .inr ⟨rfl, by simp_all [ft12WireBytes]⟩
  · next h => exact .inr ⟨rfl, fun _ _ _ he => h _ _ _ _ _ he⟩

theorem decodeApciWire_cases (bs : List Byte) :
    (∃ len f1 f2 rest, bs = apciWireBytes len f1 f2 rest ∧ decodeApciWire bs = apciKind len f1 f2 rest) ∨
    (decodeApciWire bs = .apciTryParse bs ∧ ∀ len f1 f2 rest, bs ≠ apciWireBytes len f1 f2 rest) := by
  unfold decodeApciWire
  split
  · next s len c1 c2 c3 c4 rest =>
    split
    · next h => exact .inl ⟨len, _, _, rest, by simp [apciWireBytes, h], rfl⟩
    · next h => exact .inr ⟨rfl, by simp_all [apciWireBytes]⟩
  · next h => exact .inr ⟨rfl, fun _ _ _ _ he => h _ _ _ _ _ _ _ he⟩

end Sys2Proof
end

section
/-! SUPPORT. Bytes on a wire (R52, R53; log entry 5): what they decode to writes them back, or no row describes them; and
it is run as the parse of the wire's format. -/

namespace Sys2Proof
open Machine

/-- Bytes on the FT1.2 wire decode to an instruction that writes them back, or are plain input that no row describes. -/
theorem decodeFt12Wire_wellFormed_encode (bs : List Byte) : (decodeFt12Wire bs).wellFormed = true ∧
    (encode (decodeFt12Wire bs) = .ft12Wire bs ∨
      (decodeFt12Wire bs = .ft12TryParse bs ∧ ∀ j, (rowOf j).describes (.ft12Wire bs) = false)) := by
  obtain ⟨len, len2, rest, rfl, hd⟩ | ⟨hd, hshape⟩ := decodeFt12Wire_cases bs
  · rw [hd]
    exact ⟨rfl, .inl rfl⟩
  · rw [hd]
    refine ⟨rfl, .inr ⟨rfl, fun j => Bool.eq_false_iff.2 fun hj => ?_⟩⟩
    rw [rowOf_of_describes_ft12Wire hj] at hj
    obtain ⟨len, len2, rest, hbs⟩ := (rowFt12Frame_describes_iff bs).1 hj
    exact hshape len len2 rest hbs

/-- Bytes on the APCI wire decode to an instruction that writes them back, or are plain input that no row describes. -/
theorem decodeApciWire_wellFormed_encode (bs : List Byte) : (decodeApciWire bs).wellFormed = true ∧
    (encode (decodeApciWire bs) = .apciWire bs ∨
      (decodeApciWire bs = .apciTryParse bs ∧ ∀ j, (rowOf j).describes (.apciWire bs) = false)) := by
  obtain ⟨len, f1, f2, rest, rfl, hd⟩ | ⟨hd, hshape⟩ := decodeApciWire_cases bs
  · rw [hd]
    exact (encode_apciKind len f1 f2 rest).imp_right .inl
  · rw [hd]
    refine ⟨rfl, .inr ⟨rfl, fun j => Bool.eq_false_iff.2 fun hj => ?_⟩⟩
    obtain ⟨len, f1, f2, rest, hbs, -⟩ := rowOf_of_describes_apciWire hj
    exact hshape len f1 f2 rest hbs

theorem exec_decodeFt12Wire (bs : List Byte) (s : State) : exec (decodeFt12Wire bs) s = exec (.ft12TryParse bs) s := by
  obtain ⟨len, len2, rest, rfl, hd⟩ | ⟨hd, -⟩ := decodeFt12Wire_cases bs
  · rw [hd, exec_ft12Frame]
  · rw [hd]

/-- An instruction that the encoder presents on the APCI wire has the bytes of a frame there, and is run as their parse
(log entry 5). -/
theorem exec_of_encode_apciWire : ∀ {i : Instr} {bs : List Byte}, encode i = .apciWire bs →
    (∃ len f1 f2 rest, bs = apciWireBytes len f1 f2 rest) ∧ ∀ s, exec i s = exec (.apciTryParse bs) s
  | .apciI len q r spare rest, _, rfl => ⟨⟨_, _, _, _, rfl⟩, exec_apciI len q r spare rest⟩
  | .apciS len high r spare rest, _, rfl => ⟨⟨_, _, _, _, rfl⟩, exec_apciS len high r spare rest⟩
  | .apciU len code f2 rest, _, rfl => ⟨⟨_, _, _, _, rfl⟩, exec_apciU len code f2 rest⟩
  | .apciUStartdtAct len f2 rest, _, rfl => ⟨⟨_, _, _, _, rfl⟩, exec_apciUStartdtAct len f2 rest⟩
  | .apciUStartdtCon len f2 rest, _, rfl => ⟨⟨_, _, _, _, rfl⟩, exec_apciUStartdtCon len f2 rest⟩
  | .apciUStopdtAct len f2 rest, _, rfl => ⟨⟨_, _, _, _, rfl⟩, exec_apciUStopdtAct len f2 rest⟩
  | .apciUStopdtCon len f2 rest, _, rfl => ⟨⟨_, _, _, _, rfl⟩, exec_apciUStopdtCon len f2 rest⟩
  | .apciUTestfrAct len f2 rest, _, rfl => ⟨⟨_, _, _, _, rfl⟩, exec_apciUTestfrAct len f2 rest⟩
  | .apciUTestfrCon len f2 rest, _, rfl => ⟨⟨_, _, _, _, rfl⟩, exec_apciUTestfrCon len f2 rest⟩

theorem exec_decodeApciWire (bs : List Byte) (s : State) : exec (decodeApciWire bs) s = exec (.apciTryParse bs) s := by
  obtain ⟨-, henc | ⟨hplain, -⟩⟩ := decodeApciWire_wellFormed_encode bs
  · exact (exec_of_encode_apciWire henc).2 s
  · rw [hplain]

end Sys2Proof
end

section
/-! The encoding of the instructions (30_encoding.md R54, R56): decoder, encoder and opcode table agree, and bytes on a
wire are run as the parse of their format. -/

namespace Sys2Proof
open Machine

/-- Settles O12: each constructor's fields are read back from the bytes they are written to. -/
theorem decodeOfEncode : Obligations.DecodeOfEncode := decode_encode

/-- Settles O13, by the three kinds of request. -/
theorem decodedIsWellFormedAndEncodesBack : Obligations.DecodedIsWellFormedAndEncodesBack
  | .operation _ _, _, h => (encode_of_decodeOperation h).imp_right .inl
  | .ft12Wire bs, _, h => by
    obtain rfl := Except.ok.inj h
    exact (decodeFt12Wire_wellFormed_encode bs).imp_right
      (Or.imp_right fun ⟨hd, hrow⟩ => ⟨.inl ⟨bs, rfl, hd⟩, hrow⟩)
  | .apciWire bs, _, h => by
    obtain rfl := Except.ok.inj h
    exact (decodeApciWire_wellFormed_encode bs).imp_right
      (Or.imp_right fun ⟨hd, hrow⟩ => ⟨.inr ⟨bs, rfl, hd⟩, hrow⟩)

/-- Settles O14: the instruction writes the request back, so its row describes it; every row that does is the row of the
select. -/
theorem operationsDecodeByTheirRow : Obligations.OperationsDecodeByTheirRow := by
  intro op operands i h
  obtain ⟨hwf, henc⟩ := encode_of_decodeOperation h
  have hrow := henc ▸ rowOf_describes_encode i hwf
  exact ⟨hrow, fun j hj => (rowOf_eq_opRow hj).trans (rowOf_eq_opRow hrow).symm⟩

/-- Settles O15: an instruction that writes the bytes back has a row that describes them, and any row that does fixes the
type bits of the first control word. -/
theorem wireBytesDecodeByTheirRow : Obligations.WireBytesDecodeByTheirRow := by
  constructor
  · intro bs i h
    obtain rfl := Except.ok.inj h
    obtain ⟨hwf, henc | ⟨hplain, hnone⟩⟩ := decodeFt12Wire_wellFormed_encode bs
    · have hrow := henc ▸ rowOf_describes_encode _ hwf
      exact ⟨.inr hrow, fun j hj => (rowOf_of_describes_ft12Wire hj).trans (rowOf_of_describes_ft12Wire hrow).symm⟩
    · exact ⟨.inl hplain, fun j hj => absurd hj (by simp [hnone j])⟩
  · intro bs i h
    obtain rfl := Except.ok.inj h
    obtain ⟨hwf, henc | ⟨hplain, hnone⟩⟩ := decodeApciWire_wellFormed_encode bs
    · refine ⟨.inr (henc ▸ rowOf_describes_encode _ hwf), fun j hj => ?_⟩
      obtain ⟨len, f1, f2, rest, rfl, hsame | ⟨hgeneric, hnamed⟩⟩ := rowOf_of_describes_apciWire hj
      · exact .inl (by rw [hsame, Except.ok.inj (decode_apciWireBytes len f1 f2 rest)])
      · refine .inr ⟨hgeneric, ?_⟩
        rw [Except.ok.inj (decode_apciWireBytes len f1 f2 rest), rowOf_apciKind_of_named hnamed]
        exact namedRow_mem hnamed
    · exact ⟨.inl hplain, fun j hj => absurd hj (by simp [hnone j])⟩

/-- Settles O16: the step runs what the bytes decode to, and every row is run as its parse. -/
theorem wireBytesRunTheirParse : Obligations.WireBytesRunTheirParse := fun s _ rest =>
  ⟨fun hp => (step_decoded s _ rest _ hp rfl).trans (exec_decodeFt12Wire _ _),
    fun hp => (step_decoded s _ rest _ hp rfl).trans (exec_decodeApciWire _ _)⟩

/-- Settles O11: each request is evaluated by the decoder. -/
theorem specWordsDecode : Obligations.SpecWordsDecode := by
  unfold Obligations.SpecWordsDecode
  decide

end Sys2Proof
end

section
/-! SUPPORT. The frames FT12.ENCODE writes (R40, R41, R42), and the errors of a laid-out frame (R63). -/

namespace Sys2Proof.Machine

/-- An 8-bit accumulator that discards carries gives the checksum (R41). -/
theorem foldl_add_eq_checksum (bs : List Byte) (a : Byte) : bs.foldl (· + ·) a = a + checksum bs := by
  induction bs generalizing a with
  | nil => simp [checksum, byteSum]
  | cons b bs ih =>
    rw [List.foldl_cons, ih, checksum, checksum, byteSum, BitVec.ofNat_add, BitVec.ofNat_toNat, BitVec.setWidth_eq,
      BitVec.add_assoc]

theorem checksum_toNat (bs : List Byte) : (checksum bs).toNat = (bs.map BitVec.toNat).sum % 256 := by
  rw [checksum, BitVec.toNat_ofNat, byteSum_eq_sum]

/-- Wire bytes are answered only for data within the limit, and are the frame's image (R61, R62). -/
theorem ft12Encode_answers_image {f : Ft12Frame} {s t : State} {w : List Byte}
    (h : exec (.ft12Encode f) s = .next t) (hout : t.outcome = some (.ok (.wire w))) :
    f.data.length ≤ 252 ∧ w = ft12Image f := by
  obtain rfl := Host.Outcome.next.inj ((exec_ft12Encode f s).symm.trans h)
  have hresult := Option.some.inj hout
  by_cases hf : f.data.length ≤ 252
  · rw [ft12EncodeResult_fits f hf, ← ft12Image_eq_wireBytes] at hresult
    cases hresult
    exact ⟨hf, rfl⟩
  · rw [ft12EncodeResult_long f (by omega)] at hresult
    cases hresult

theorem byteAt_one_ft12Image {f : Ft12Frame} (h : f.data.length ≤ 252) :
    (byteAt (ft12Image f) 1).toNat = f.data.length + 3 := by
  rw [ft12Image_eq_wireBytes]
  exact ft12LenByte_toNat h

theorem slice_ft12Image_counted (f : Ft12Frame) : slice (ft12Image f) 4 (4 + (f.data.length + 3)) = ft12Counted f := by
  rw [ft12Image_eq_wireBytes, Nat.add_comm 4, slice_ft12WireBytes _ _ _ 0, slice_zero, ← ft12Body_length,
    List.take_left, ft12Counted_eq_body]

theorem byteAt_ft12Image_checksum (f : Ft12Frame) :
    byteAt (ft12Image f) (4 + (f.data.length + 3)) = checksum (ft12Counted f) := by
  rw [ft12Image_eq_wireBytes, Nat.add_comm 4, byteAt_ft12WireBytes, ← ft12Body_length, ft12Counted_eq_body]
  exact byteAt_append_right _ _ 0

/-! A laid-out frame whose bytes are present (R63 lines 7 and 8). -/

section
variable {len len2 : Byte} {rest : List Byte} (hpresent : len.toNat + 2 ≤ rest.length)
include hpresent

theorem ft12TryParse_lenDup (hdup : len2 ≠ len) :
    ft12TryParse (ft12WireBytes len len2 rest) = .error .ft12LenDup := by
  have hheader : ¬ rest.length + 4 < 2 := by omega
  have hall : ¬ rest.length + 4 < len.toNat + 6 := by omega
  simp [ft12TryParse, ft12WireBytes, ft12Overhead, hheader, hall, hdup]

theorem ft12TryParse_lenShort (hdup : len2 = len) (hshort : len.toNat < 3) :
    ft12TryParse (ft12WireBytes len len2 rest) = .error .ft12LenShort := by
  have hheader : ¬ rest.length + 4 < 2 := by omega
  have hall : ¬ rest.length + 4 < len.toNat + 6 := by omega
  simp [ft12TryParse, ft12WireBytes, ft12Overhead, ft12LenMin, hheader, hall, hdup, hshort]

end

end Sys2Proof.Machine
end

section
/-! The FT1.2 frame layout (30_encoding.md R40 to R43, R52). -/

namespace Sys2Proof
open Machine

/-- Settles O24: the counted bytes stand at 4 to 4 + LEN and their checksum after them. -/
theorem checksumIsTheSumOfTheCountedBytes : Obligations.ChecksumIsTheSumOfTheCountedBytes := by
  intro f s t w h hout
  obtain ⟨hf, rfl⟩ := ft12Encode_answers_image h hout
  rw [byteAt_one_ft12Image hf, slice_ft12Image_counted, byteAt_ft12Image_checksum, foldl_add_eq_checksum]
  exact ⟨checksum_toNat _, (BitVec.zero_add _).symm, rfl⟩

/-- Settles O25: the image has nine bytes beside the data, and its LEN byte counts three of them. -/
theorem ft12WireLength : Obligations.Ft12WireLength := by
  intro f s t w h hout
  obtain ⟨hf, rfl⟩ := ft12Encode_answers_image h hout
  have hlen := ft12Image_length f
  have hbyte := byteAt_one_ft12Image hf
  omega

/-- Settles O32: the bytes are those of the frame of their fields, laid out under its checksum. -/
theorem ft12FrameRowIsAccepted : Obligations.Ft12FrameRowIsAccepted := by
  intro len control lo hi cs data tail s hlen hcs
  let f : Ft12Frame := ⟨control, word16 lo hi, data⟩
  have hbody : ft12Body f = control :: lo :: hi :: data := by simp [f, ft12Body, word16Bytes]
  have hsum : cs = checksum (ft12Body f) := by
    apply BitVec.eq_of_toNat_eq
    rw [hcs, checksum_toNat, hbody]
    simp [Nat.add_assoc]
  have hbytes : [control, lo, hi] ++ data ++ [cs, 0x16] ++ tail =
      ft12Body f ++ checksum (ft12Body f) :: endByte :: tail := by
    simp [hsum, hbody, endByte]
  refine ⟨f, rfl, word16_toNat lo hi, rfl, ?_⟩
  rw [exec_ft12Frame, exec_ft12TryParse, hbytes, ft12TryParse_wireBytes f len (by simp [hlen, f]; omega), hlen,
    Nat.add_comm 3]
  rfl

/-- Settles O33, by the test of the parse that decides. -/
theorem ft12FrameRowErrors : Obligations.Ft12FrameRowErrors := by
  intro len len2 rest s
  rw [exec_ft12Frame, exec_ft12TryParse]
  refine ⟨fun hmissing => ?_, fun hpresent hdup => ?_, fun hpresent hdup hshort => ?_⟩
  · have hneed : ft12TryParse (ft12WireBytes len len2 rest) = .needMore :=
      (ft12TryParse_needMore _).2 (.inr (Nat.add_lt_add_right hmissing 4))
    rw [hneed]; rfl
  · rw [ft12TryParse_lenDup hpresent hdup]; rfl
  · rw [ft12TryParse_lenShort hpresent hdup hshort]; rfl

end Sys2Proof
end

section
/-! SUPPORT. The parse of an APCI frame laid out as R45 says: LEN and the bytes present decide, then F1's two low bits. -/

namespace Sys2Proof.Machine

theorem byteAt_one_apciWireBytes (len : Byte) (f1 f2 : Word16) (rest : List Byte) :
    byteAt (apciWireBytes len f1 f2 rest) 1 = len := rfl

/-- The tests of R87 on a laid-out frame: its start byte is right and LEN is there. -/
theorem apciTryParse_wireBytes (len : Byte) (f1 f2 : Word16) (rest : List Byte) :
    apciTryParse (apciWireBytes len f1 f2 rest) =
      if len.toNat < 4 then .error .apciLenShort
      else if rest.length + 6 < len.toNat + 2 then .needMore
      else .ok (apciFrameOf (apciWireBytes len f1 f2 rest) len.toNat) (len.toNat + 2) := by
  have hheader : ¬ (apciWireBytes len f1 f2 rest).length < 2 := by simp
  have hstart : ¬ byteAt (apciWireBytes len f1 f2 rest) 0 ≠ startByte := not_not_intro rfl
  unfold apciTryParse
  dsimp only
  rw [if_neg hheader, if_neg hstart]
  rfl

/-! The frame by the first control word (R48); the bits and bytes its type does not use are not in it (R51, R53). -/

theorem word16At_two_apciWireBytes (len : Byte) (f1 f2 : Word16) (rest : List Byte) :
    word16At (apciWireBytes len f1 f2 rest) 2 = f1 := word16_loByte_hiByte f1

theorem word16At_four_apciWireBytes (len : Byte) (f1 f2 : Word16) (rest : List Byte) :
    word16At (apciWireBytes len f1 f2 rest) 4 = f2 := word16_loByte_hiByte f2

theorem apciFrameOf_of_even {buf : List Byte} (h : (word16At buf 2).toNat % 2 = 0) (n : Nat) :
    apciFrameOf buf n = .i (seqOf (word16At buf 2)) (seqOf (word16At buf 4)) (slice buf 6 (n + 2)) :=
  if_pos ((and_one_eq_zero_iff _).2 h)

theorem apciFrameOf_iWord (len : Byte) (q r : Seq15) (spare : BitVec 1) (rest : List Byte) (n : Nat) :
    apciFrameOf (apciWireBytes len (seqWord q 0#1) (seqWord r spare) rest) n = .i q r (rest.take (n - 4)) := by
  have hf1 := word16At_two_apciWireBytes len (seqWord q 0#1) (seqWord r spare) rest
  have heven : (seqWord q 0#1).toNat % 2 = 0 := by simp [seqWord_toNat]
  rw [apciFrameOf_of_even (by rwa [hf1]), hf1, word16At_four_apciWireBytes, seqOf_seqWord, seqOf_seqWord]
  rfl

theorem apciFrameOf_sWord (len : Byte) (high : BitVec 14) (r : Seq15) (spare : BitVec 1) (rest : List Byte) (n : Nat) :
    apciFrameOf (apciWireBytes len (sWord high) (seqWord r spare) rest) n = .s r := by
  have hone : (sWord high).toNat % 4 = 1 := by rw [sWord_toNat]; omega
  have hodd : ¬ (sWord high).toNat % 2 = 0 := by omega
  simp [apciFrameOf, word16At_two_apciWireBytes, word16At_four_apciWireBytes, and_one_eq_zero_iff,
    and_three_eq_one_iff, hone, hodd]

theorem apciFrameOf_uWord {code : Word16} (h : code.toNat % 4 = 3) (len : Byte) (f2 : Word16) (rest : List Byte)
    (n : Nat) : apciFrameOf (apciWireBytes len code f2 rest) n = .u code := by
  have hone : ¬ code.toNat % 4 = 1 := by omega
  have hodd : ¬ code.toNat % 2 = 0 := by omega
  simp [apciFrameOf, word16At_two_apciWireBytes, and_one_eq_zero_iff, and_three_eq_one_iff, hone, hodd]

/-- The numbers of an answered I-frame are the two control words halved (R47). -/
theorem apciFrameOf_eq_i {buf : List Byte} {n : Nat} {q r : Seq15} {payload : List Byte}
    (h : apciFrameOf buf n = .i q r payload) : q = seqOf (word16At buf 2) ∧ r = seqOf (word16At buf 4) := by
  unfold apciFrameOf at h
  dsimp only at h
  split at h
  · cases h
    exact ⟨rfl, rfl⟩
  · split at h <;> cases h

/-! What an APCI wire row answers (R53, R87; log entry 5). -/

/-- A whole frame is answered with LEN + 2 bytes consumed. -/
theorem exec_apciTryParse_whole {len : Byte} {f1 f2 : Word16} {rest : List Byte} {f : ApciFrame}
    (hmin : 4 ≤ len.toNat) (hpresent : len.toNat - 4 ≤ rest.length)
    (hf : apciFrameOf (apciWireBytes len f1 f2 rest) len.toNat = f) (s : State) :
    exec (.apciTryParse (apciWireBytes len f1 f2 rest)) s =
      .next (s.answering (.ok (.apciParsed f (len.toNat + 2)))) := by
  rw [exec_apciTryParse, apciTryParse_wireBytes, if_neg (by omega), if_neg (by omega), hf]
  rfl

/-- Frames of one LEN and equal bytes after the control words are answered alike when their frames agree. -/
theorem exec_apciTryParse_congr {len : Byte} {f1 f2 g1 g2 : Word16} {rest : List Byte}
    (hf : apciFrameOf (apciWireBytes len f1 f2 rest) len.toNat = apciFrameOf (apciWireBytes len g1 g2 rest) len.toNat)
    (s : State) : exec (.apciTryParse (apciWireBytes len f1 f2 rest)) s =
      exec (.apciTryParse (apciWireBytes len g1 g2 rest)) s := by
  rw [exec_apciTryParse, exec_apciTryParse, apciTryParse_wireBytes, apciTryParse_wireBytes, hf]

/-- Wire bytes are answered only for a payload within the limit, as laid out (R81, R82). -/
theorem apciEncI_answers_wireBytes {q r : Seq15} {payload : List Byte} {s t : State} {w : List Byte}
    (h : exec (.apciEncI q r payload) s = .next t) (hout : t.outcome = some (.ok (.wire w))) :
    w = apciWireBytes (apciLenByte payload) (seqWord q 0#1) (seqWord r 0#1) payload := by
  obtain rfl := Host.Outcome.next.inj ((exec_apciEncI q r payload s).symm.trans h)
  have hresult := Option.some.inj hout
  by_cases hp : payload.length ≤ 251
  · rw [apciEncIResult_fits q r payload hp] at hresult
    cases hresult
    rfl
  · rw [apciEncIResult_long q r payload (by omega)] at hresult
    cases hresult

/-- The bytes of a sequence number's word: seven bits above bit 0, then eight (R47). -/
theorem seqWord_bytes_toNat (q : Seq15) : (loByte (seqWord q 0#1)).toNat = 2 * (q.toNat % 128) ∧
    (hiByte (seqWord q 0#1)).toNat = q.toNat / 128 := by
  have hq := q.isLt
  simp only [loByte_eq_ofNat, hiByte_eq_ofNat, seqWord_toNat, BitVec.toNat_ofNat]
  omega

end Sys2Proof.Machine
end

section
/-! The APCI frame layout (30_encoding.md R45 to R51, R53). -/

namespace Sys2Proof
open Machine

/-- Settles O48: the encoder's four control bytes are those of the two numbers' words, and the parse halves the words. -/
theorem sequenceNumbersInBits15To1 : Obligations.SequenceNumbersInBits15To1 := by
  constructor
  · intro q r payload s t w h hout
    obtain rfl := apciEncI_answers_wireBytes h hout
    obtain ⟨hq1, hq2⟩ := seqWord_bytes_toNat q
    obtain ⟨hr1, hr2⟩ := seqWord_bytes_toNat r
    exact ⟨hq1, hq2, hr1, hr2⟩
  · intro buf s t q r payload c h hout
    obtain rfl := Host.Outcome.next.inj ((exec_apciTryParse buf s).symm.trans h)
    obtain ⟨_, _, hparse, ⟨⟩⟩ := Parse.toResult_eq_ok.1 (Option.some.inj hout)
    obtain ⟨-, -, -, hframe, -⟩ := (apciTryParse_ok _ _ _).1 hparse
    obtain ⟨rfl, rfl⟩ := apciFrameOf_eq_i hframe.symm
    exact ⟨by rw [seqOf_toNat, word16At, word16_toNat], by rw [seqOf_toNat, word16At, word16_toNat]⟩

/-- Settles O53: the encoder evaluates to the table's bytes, and each named code is a U code, answered as it stands. -/
theorem namedUCommands : Obligations.NamedUCommands := by
  intro len f2 rest s
  refine ⟨rfl, rfl, rfl, rfl, rfl, rfl, fun hmin hpresent => ?_⟩
  have hrow : ∀ code : Word16, code.toNat % 4 = 3 → exec (.apciTryParse (apciWireBytes len code f2 rest)) s =
      .next (s.answering (.ok (.apciParsed (.u code) (len.toNat + 2)))) := fun code hcode =>
    exec_apciTryParse_whole hmin hpresent (apciFrameOf_uWord hcode len f2 rest _) s
  exact ⟨hrow codeStartdtAct rfl, hrow codeStartdtCon rfl, hrow codeStopdtAct rfl, hrow codeStopdtCon rfl,
    hrow codeTestfrAct rfl, hrow codeTestfrCon rfl⟩

/-- Settles O54: each row is the parse of a whole frame, whose type its first control word fixes. -/
theorem apciRowsAreAccepted : Obligations.ApciRowsAreAccepted := by
  refine fun len rest s hmin hpresent => ⟨fun q r spare => ?_, fun high r spare => ?_, fun code f2 hcode => ?_⟩
  · rw [exec_apciI]
    exact exec_apciTryParse_whole hmin hpresent (apciFrameOf_iWord len q r spare rest _) s
  · rw [exec_apciS]
    exact exec_apciTryParse_whole hmin hpresent (apciFrameOf_sWord len high r spare rest _) s
  · rw [exec_apciU]
    exact exec_apciTryParse_whole hmin hpresent (apciFrameOf_uWord hcode len f2 rest _) s

/-- Settles O55: such an instruction is run as the parse of a laid-out frame, in which LEN and the length decide. -/
theorem apciRowErrors : Obligations.ApciRowErrors := by
  intro i bs s h
  obtain ⟨⟨len, f1, f2, rest, rfl⟩, hexec⟩ := exec_of_encode_apciWire h
  rw [hexec, exec_apciTryParse, apciTryParse_wireBytes, byteAt_one_apciWireBytes, apciWireBytes_length]
  refine ⟨fun hshort => ?_, fun hmin hmissing => ?_⟩
  · rw [if_pos hshort]; rfl
  · rw [if_neg (Nat.not_lt.2 hmin), if_pos hmissing]; rfl

/-- Settles O56: two rows that differ in unused bits are parses of frames with the same fields. -/
theorem unusedControlBitsAreIgnored : Obligations.UnusedControlBitsAreIgnored := by
  intro len rest s
  have hcode : ∀ code f2 f2' : Word16, code.toNat % 4 = 3 → exec (.apciTryParse (apciWireBytes len code f2 rest)) s =
      exec (.apciTryParse (apciWireBytes len code f2' rest)) s := fun code f2 f2' h =>
    exec_apciTryParse_congr (by rw [apciFrameOf_uWord h, apciFrameOf_uWord h]) s
  refine ⟨fun q r a b => ?_, fun high high' r a b => ?_, hcode, fun f2 f2' => ?_⟩
  · rw [exec_apciI, exec_apciI]
    exact exec_apciTryParse_congr (by rw [apciFrameOf_iWord, apciFrameOf_iWord]) s
  · rw [exec_apciS, exec_apciS]
    exact exec_apciTryParse_congr (by rw [apciFrameOf_sWord, apciFrameOf_sWord]) s
  · exact ⟨hcode codeStartdtAct f2 f2' rfl, hcode codeStartdtCon f2 f2' rfl, hcode codeStopdtAct f2 f2' rfl,
      hcode codeStopdtCon f2 f2' rfl, hcode codeTestfrAct f2 f2' rfl, hcode codeTestfrCon f2 f2' rfl⟩

end Sys2Proof
end

section
/-! SUPPORT. The FT1.2 parse once the bytes of its frame are present: its tests (R63), that no bytes appended change its
answer (R64), and that one byte changed in the checksum's place does. -/

namespace Sys2Proof

/-! A byte written into a sequence. -/

theorem byteAt_set_of_lt (bs : List Byte) (x : Byte) {i n : Nat} (h : i < n) : byteAt (bs.set n x) i = byteAt bs i := by
  rw [← byteAt_take _ i n h, List.take_set_of_le le_rfl, byteAt_take bs i n h]

theorem byteAt_set_self (bs : List Byte) (x : Byte) {n : Nat} (h : n < bs.length) : byteAt (bs.set n x) n = x := by
  rw [byteAt_eq_getElem _ n (by rwa [List.length_set]), List.getElem_set_self]

theorem slice_set_of_le (bs : List Byte) (x : Byte) {i j n : Nat} (h : j ≤ n) :
    slice (bs.set n x) i j = slice bs i j := by
  rw [← slice_take _ h, List.take_set_of_le le_rfl, slice_take bs h]

/-- The frame whose control and address are read from a buffer, field by field (R6, R22). -/
theorem eq_frame_iff (f : Ft12Frame) (buf data : List Byte) : f = ⟨byteAt buf 4, word16At buf 5, data⟩ ↔
    f.control = byteAt buf 4 ∧ f.address.toNat = (byteAt buf 5).toNat + 256 * (byteAt buf 6).toNat ∧ f.data = data := by
  rw [← word16_toNat, BitVec.toNat_inj, ← word16At]
  cases f
  simp

namespace Machine

theorem Parse.toResult_eq_needMore {α : Type} {attach : α → Nat → Payload} {p : Parse α} :
    p.toResult attach = .needMore ↔ p = .needMore := by
  cases p <;> simp [Parse.toResult]

theorem Parse.toResult_eq_error {α : Type} {attach : α → Nat → Payload} {p : Parse α} {c : Cause} :
    p.toResult attach = .error c ↔ p = .error c := by
  cases p <;> simp [Parse.toResult]

/-- The parse behind an answer OK of FT12.TRYPARSE. -/
theorem toResult_eq_ft12Parsed {p : Parse Ft12Frame} {f : Ft12Frame} {c : Nat} :
    p.toResult .ft12Parsed = .ok (.ft12Parsed f c) ↔ p = .ok f c := by
  cases p <;> simp [Parse.toResult]

/-- The bytes of the frame that LEN announces are present exactly when the parse does not wait (R63 lines 1 and 3). -/
theorem ft12TryParse_ne_needMore (buf : List Byte) :
    ft12TryParse buf ≠ .needMore ↔ (byteAt buf 1).toNat + 6 ≤ buf.length := by
  rw [Ne, ft12TryParse_needMore, ft12Overhead]
  omega

/-- The tests of R63 in their order, each in the terms of its rule, once the bytes of the frame are present. -/
theorem ft12TryParse_of_present {buf : List Byte} (h : (byteAt buf 1).toNat + 6 ≤ buf.length) :
    ft12TryParse buf =
      if byteAt buf 0 ≠ 0x68#8 then .error .ft12Start1
      else if byteAt buf 3 ≠ 0x68#8 then .error .ft12Start2
      else if byteAt buf 2 ≠ byteAt buf 1 then .error .ft12LenDup
      else if ¬ 3 ≤ (byteAt buf 1).toNat then .error .ft12LenShort
      else if (byteAt buf (4 + (byteAt buf 1).toNat)).toNat ≠
          ((slice buf 4 (4 + (byteAt buf 1).toNat)).map BitVec.toNat).sum % 256 then .error .ft12Checksum
      else if byteAt buf (5 + (byteAt buf 1).toNat) ≠ 0x16#8 then .error .ft12End
      else .ok ⟨byteAt buf 4, word16At buf 5, slice buf 7 (4 + (byteAt buf 1).toNat)⟩ ((byteAt buf 1).toNat + 6) := by
  have hheader : ¬ buf.length < 2 := by omega
  have hall : ¬ buf.length < (byteAt buf 1).toNat + ft12Overhead := Nat.not_lt.2 h
  unfold ft12TryParse
  dsimp only
  rw [if_neg hheader, if_neg hall]
  simp only [ft12Overhead, ft12LenMin, startByte, endByte, ← checksum_toNat, ← Nat.not_le, ne_eq, BitVec.toNat_inj]
  rfl

/-- Bytes after those of the frame change nothing (R64). -/
theorem ft12TryParse_append_of_present {buf : List Byte} (h : (byteAt buf 1).toNat + 6 ≤ buf.length)
    (tail : List Byte) : ft12TryParse (buf ++ tail) = ft12TryParse buf := by
  rw [← ft12TryParse_take (buf ++ tail), byteAt_append_left buf tail 1 (by omega), ft12Overhead,
    List.take_append_of_le_length h]
  exact ft12TryParse_take buf

theorem ft12TryParse_append_error {buf : List Byte} {c : Cause} (h : ft12TryParse buf = .error c) (tail : List Byte) :
    ft12TryParse (buf ++ tail) = .error c := by
  have hpresent := (ft12TryParse_ne_needMore buf).1 (by simp [h])
  rw [ft12TryParse_append_of_present hpresent, h]

/-- The parse answers no cause but its own six (R101). -/
theorem ofFt12Parse_of_ft12TryParse_error {buf : List Byte} {c : Cause} (h : ft12TryParse buf = .error c) :
    c.ofFt12Parse = true := by
  rw [ft12TryParse_of_present ((ft12TryParse_ne_needMore buf).1 (by simp [h]))] at h
  split_ifs at h <;> cases h <;> rfl

/-- An accepted buffer with another byte in the checksum's place passes the tests before that of the checksum, which
read the bytes before it, and fails that one (R63 line 9). -/
theorem ft12TryParse_set_checksum {buf : List Byte} {f : Ft12Frame} {c : Nat} (h : ft12TryParse buf = .ok f c)
    {b : Byte} (hb : b ≠ byteAt buf (4 + (byteAt buf 1).toNat)) :
    ft12TryParse (buf.set (4 + (byteAt buf 1).toNat) b) = .error .ft12Checksum := by
  obtain ⟨hlen, h0, h3, h2, hmin, hcs, -⟩ := ft12TryParse_ok h
  generalize hn : 4 + (byteAt buf 1).toNat = n at *
  have hbyte : ∀ i < n, byteAt (buf.set n b) i = byteAt buf i := fun i hi => byteAt_set_of_lt buf b hi
  have hlast : byteAt (buf.set n b) n = b := byteAt_set_self buf b (by omega)
  rw [ft12TryParse_of_present (by rw [hbyte 1 (by omega), List.length_set]; exact hlen), hbyte 0 (by omega),
    hbyte 1 (by omega), hbyte 2 (by omega), hbyte 3 (by omega), hn, hlast, slice_set_of_le buf b le_rfl,
    ← checksum_toNat, ← hcs, h0, h2, h3]
  simp [startByte, hmin, hb, BitVec.toNat_inj]

end Machine
end Sys2Proof
end

section
/-! The FT1.2 encode and parse operations (40_ft12_framer.md R61 to R66). -/

namespace Sys2Proof
open Machine

/-- Settles O23: within the limit the encoder's layout is the image, and beyond it the encoder refuses. -/
theorem ft12EncodeWritesTheFrame : Obligations.Ft12EncodeWritesTheFrame := by
  intro f s
  rw [exec_ft12Encode]
  refine ⟨fun hfits => ?_, fun hlong => ?_⟩
  · rw [ft12EncodeResult_fits f hfits, ft12Image_eq_wireBytes]
  · rw [ft12EncodeResult_long f hlong]

/-- Settles O26: unless bytes are missing, the parse is its six tests one after another, and the first that fails tells
the outcome. -/
theorem ft12ParseDecidesInOrder : Obligations.Ft12ParseDecidesInOrder := by
  intro buf s
  refine ⟨_, exec_ft12TryParse buf s, ?_⟩
  dsimp only
  simp only [Parse.toResult_eq_needMore, Parse.toResult_eq_error, toResult_eq_ft12Parsed]
  by_cases hpresent : 2 ≤ buf.length ∧ (byteAt buf 1).toNat + 6 ≤ buf.length
  case neg =>
    have hneed : ft12TryParse buf = .needMore := (ft12TryParse_needMore buf).2 (by rw [ft12Overhead]; omega)
    simp [hneed, hpresent]
  rw [ft12TryParse_of_present hpresent.2]
  by_cases hstart1 : byteAt buf 0 = 0x68#8
  case neg => simp [hpresent, hstart1]
  by_cases hstart2 : byteAt buf 3 = 0x68#8
  case neg => simp [hpresent, hstart1, hstart2]
  by_cases hdup : byteAt buf 2 = byteAt buf 1
  case neg => simp [hpresent, hstart1, hstart2, hdup]
  by_cases hlong : 3 ≤ (byteAt buf 1).toNat
  case neg => simp [hpresent, hstart1, hstart2, hdup, hlong]
  by_cases hsum : (byteAt buf (4 + (byteAt buf 1).toNat)).toNat =
      ((slice buf 4 (4 + (byteAt buf 1).toNat)).map BitVec.toNat).sum % 256
  case neg => simp [hpresent, hstart1, hstart2, hdup, hlong, hsum]
  by_cases hstop : byteAt buf (5 + (byteAt buf 1).toNat) = 0x16#8
  case neg => simp [hpresent, hstart1, hstart2, hdup, hlong, hsum, hstop]
  case pos => simp [hpresent, hstart1, hstart2, hdup, hlong, hsum, hstop, eq_frame_iff, and_assoc, eq_comm]

/-- Settles O28: the encoder writes the frame's image, which the parse accepts, and the parse accepts nothing else. -/
theorem ft12RoundTrip : Obligations.Ft12RoundTrip := by
  constructor
  · intro f s t w h hout tail u
    obtain ⟨hf, rfl⟩ := ft12Encode_answers_image h hout
    rw [exec_ft12TryParse, ft12TryParse_image hf]
    rfl
  · intro b f c s t h hout u
    obtain rfl := Host.Outcome.next.inj ((exec_ft12TryParse b s).symm.trans h)
    have hparse := toResult_eq_ft12Parsed.1 (Option.some.inj hout)
    obtain ⟨hf, -⟩ := ft12TryParse_ok_lengths hparse
    rw [take_eq_image_of_ft12TryParse_ok hparse]
    exact (ft12EncodeWritesTheFrame f u).1 hf

/-- Settles O29: an error is an answer to bytes that are all present, and so is OK. -/
theorem ft12FormatErrorIsFinal : Obligations.Ft12FormatErrorIsFinal := by
  intro buf s t h
  obtain rfl := Host.Outcome.next.inj ((exec_ft12TryParse buf s).symm.trans h)
  refine ⟨fun c hout tail u => ?_, fun f c hout => ?_⟩
  · have hparse := Parse.toResult_eq_error.1 (Option.some.inj hout)
    rw [exec_ft12TryParse, ft12TryParse_append_error hparse]
    rfl
  · obtain ⟨hlen, -, -, -, -, -, -, -, rfl⟩ := ft12TryParse_ok (toResult_eq_ft12Parsed.1 (Option.some.inj hout))
    exact ⟨rfl, hlen⟩

/-- Settles O27: each buffer of the table is evaluated, and the longest frame is an image. -/
theorem ft12ParseCornerCases : Obligations.Ft12ParseCornerCases := by
  intro s
  refine ⟨rfl, rfl, rfl, rfl, rfl, rfl, rfl, rfl, rfl, rfl, rfl, rfl, rfl, rfl, rfl, fun f hf => ?_⟩
  have hparse := ft12TryParse_image hf.le []
  rw [List.append_nil, ft12Image_length, hf] at hparse
  rw [exec_ft12TryParse, hparse]
  rfl

end Sys2Proof
end

section
/-! SUPPORT. What FT12.APPEND answers by the parse of the content and the bytes (R67, R68, R70), and how a frame is put
together from its pieces (R71). -/

namespace Sys2Proof.Machine

/-! An append that fits (R67): the parse's answer, the frame's bytes dropped on OK and every byte kept otherwise. -/

section
variable {s : State} {bytes : List Byte}
  (hfits : ∀ cap, Config.accCap = some cap → s.acc.length + bytes.length ≤ cap)
include hfits

theorem exec_ft12Append_of_ok {f : Ft12Frame} {c : Nat} (h : ft12TryParse (s.acc ++ bytes) = .ok f c) :
    exec (.ft12Append bytes) s = .next { s with acc := (s.acc ++ bytes).drop c, outcome := some (.ok (.ft12 f)) } := by
  rw [exec_ft12Append, accAppend, if_pos ((capFits_accCap _).2 hfits), h]

theorem exec_ft12Append_of_needMore (h : ft12TryParse (s.acc ++ bytes) = .needMore) :
    exec (.ft12Append bytes) s = .next { s with acc := s.acc ++ bytes, outcome := some .needMore } := by
  rw [exec_ft12Append, accAppend, if_pos ((capFits_accCap _).2 hfits), h]

theorem exec_ft12Append_of_error {c : Cause} (h : ft12TryParse (s.acc ++ bytes) = .error c) :
    exec (.ft12Append bytes) s = .next { s with acc := s.acc ++ bytes, outcome := some (.error c) } := by
  rw [exec_ft12Append, accAppend, if_pos ((capFits_accCap _).2 hfits), h]

end

/-! The capacity (R70). -/

theorem capFits_some {cap : Nat} (hcap : 261 ≤ cap) (n : Nat) : capFits (some cap) n = true ↔ n ≤ cap := by
  have hmin : ft12FrameMax = 261 := rfl
  simp [capFits]
  omega

theorem capFits_none (n : Nat) : capFits none n = true := by simp [capFits]

theorem accAppend_eq_overflow {cap : Option Nat} {acc bytes : List Byte}
    (h : capFits cap (acc.length + bytes.length) = false) : accAppend cap acc bytes = (acc, .error .accOverflow) := by
  rw [accAppend, h]
  rfl

/-- An append that fits never overflows: ACC_OVERFLOW is no cause of the parse (R101). -/
theorem accAppend_ne_overflow {cap : Option Nat} {acc bytes : List Byte}
    (h : capFits cap (acc.length + bytes.length) = true) : (accAppend cap acc bytes).2 ≠ .error .accOverflow := by
  obtain ⟨hover, -⟩ | ⟨-, ⟨f, c, -, happend⟩ | ⟨-, happend⟩ | ⟨c, hparse, happend⟩⟩ := accAppend_cases cap acc bytes
  · simp [h] at hover
  · simp [happend]
  · simp [happend]
  · rw [happend]
    rintro ⟨⟩
    cases ofFt12Parse_of_ft12TryParse_error hparse

/-- An append waits only if the parse of the content and the bytes does (R67). -/
theorem accAppend_ne_needMore {cap : Option Nat} {acc bytes : List Byte}
    (h : ft12TryParse (acc ++ bytes) ≠ .needMore) : (accAppend cap acc bytes).2 ≠ .needMore := by
  obtain ⟨-, happend⟩ | ⟨-, ⟨f, c, -, happend⟩ | ⟨hparse, -⟩ | ⟨c, -, happend⟩⟩ := accAppend_cases cap acc bytes
  · simp [happend]
  · simp [happend]
  · exact absurd hparse h
  · simp [happend]

/-- An append that answers a format error has kept every byte, and the content now fails with that cause (R68). -/
theorem accAppend_formatError {cap : Option Nat} {acc bytes : List Byte} {c : Cause} (hc : c.cls = .formatError)
    (h : (accAppend cap acc bytes).2 = .error c) :
    (accAppend cap acc bytes).1 = acc ++ bytes ∧ ft12TryParse (acc ++ bytes) = .error c := by
  obtain ⟨-, happend⟩ | ⟨-, ⟨f, n, -, happend⟩ | ⟨-, happend⟩ | ⟨e, hparse, happend⟩⟩ := accAppend_cases cap acc bytes
  · rw [happend] at h
    cases h
    cases hc
  · rw [happend] at h
    cases h
  · rw [happend] at h
    cases h
  · rw [happend] at h ⊢
    cases h
    exact ⟨rfl, hparse⟩

/-! The pieces of a frame (R71). -/

/-- Too few bytes of a frame make the parse wait. -/
theorem ft12TryParse_needMore_of_append_eq_image {f : Ft12Frame} (hf : f.data.length ≤ 252) {a b : List Byte}
    (hb : b ≠ []) (h : a ++ b = ft12Image f) : ft12TryParse a = .needMore := by
  have hpos := List.length_pos_of_ne_nil hb
  have hlen := congrArg List.length h
  rw [List.length_append, ft12Image_length] at hlen
  rw [ft12TryParse_needMore, ft12Overhead]
  by_cases hshort : a.length < 2
  · exact .inl hshort
  · have hbyte := byteAt_one_ft12Image hf
    rw [← h, byteAt_append_left a b 1 (by omega)] at hbyte
    omega

/-! An append that stands first among the pending inputs; any bytes are its operand (R54). -/

theorem step_append {s : State} {p : List Byte} {rest : List Input}
    (hp : s.pending = .request (.operation 0x3 p) :: rest) :
    step s = exec (.ft12Append p) { s with pending := rest } :=
  step_decoded s _ rest _ hp rfl

theorem step_append_of_needMore {s : State} {p : List Byte} {rest : List Input}
    (hp : s.pending = .request (.operation 0x3 p) :: rest) (hlen : s.acc.length + p.length ≤ 261)
    (hneed : ft12TryParse (s.acc ++ p) = .needMore) :
    step s = .next { acc := s.acc ++ p, pending := rest, outcome := some .needMore } := by
  rw [step_append hp]
  exact exec_ft12Append_of_needMore (le_accCap _ hlen) hneed

theorem step_append_delivers {s : State} {p : List Byte} {rest : List Input} {f : Ft12Frame}
    (hp : s.pending = .request (.operation 0x3 p) :: rest) (hf : f.data.length ≤ 252)
    (hacc : s.acc ++ p = ft12Image f) :
    step s = .next { acc := [], pending := rest, outcome := some (.ok (.ft12 f)) } := by
  have hlen := congrArg List.length hacc
  rw [List.length_append, ft12Image_length] at hlen
  rw [step_append hp]
  exact exec_ft12Append_delivers hf (le_accCap _ (by dsimp only; omega)) (hacc.trans (List.append_nil _).symm)

/-- The pieces of a frame, `ACC` holding those before them, are taken one per append; the last delivers the frame. -/
theorem run_pieces {f : Ft12Frame} (hf : f.data.length ≤ 252) {q : List Byte} (hq : q ≠ []) (rest : List Input) :
    ∀ (ps : List (List Byte)) (s : State), s.acc ++ (ps.flatten ++ q) = ft12Image f →
      s.pending = (ps ++ [q]).map (fun p => Input.request (.operation 0x3 p)) ++ rest →
      (∀ k, k < ps.length → ∃ t, Host.Core.run Sys2Proof.core (k + 1) s = .next t ∧
        t.acc = s.acc ++ (ps.take (k + 1)).flatten ∧ t.outcome = some .needMore) ∧
      ∃ t, Host.Core.run Sys2Proof.core (ps.length + 1) s = .next t ∧ t.acc = [] ∧ t.outcome = some (.ok (.ft12 f)) ∧
        t.pending = rest := by
  intro ps
  induction ps with
  | nil =>
    intro s hacc hpending
    have hdeliver := step_append_delivers hpending hf hacc
    exact ⟨fun _ hk => absurd hk (Nat.not_lt_zero _), _, core_run_succ 0 hdeliver, rfl, rfl, rfl⟩
  | cons p ps ih =>
    intro s hacc hpending
    have hsplit : (s.acc ++ p) ++ (ps.flatten ++ q) = ft12Image f := by simpa using hacc
    have hlen := congrArg List.length hsplit
    simp only [List.length_append, ft12Image_length] at hlen
    have hneed := ft12TryParse_needMore_of_append_eq_image hf (by simp [hq]) hsplit
    have hstep := step_append_of_needMore hpending (by omega) hneed
    obtain ⟨hbefore, hlast⟩ := ih ⟨s.acc ++ p, _, some .needMore⟩ hsplit rfl
    rw [List.length_cons, core_run_succ _ hstep]
    refine ⟨fun k hk => ?_, hlast⟩
    rw [core_run_succ k hstep]
    cases k with
    | zero => exact ⟨_, core_run_zero _, by simp, rfl⟩
    | succ k =>
      obtain ⟨t, hrun, htacc, hout⟩ := hbefore k (Nat.lt_of_succ_lt_succ hk)
      exact ⟨t, hrun, by simpa using htacc, hout⟩

end Sys2Proof.Machine
end

section
/-! The FT1.2 accumulator (40_ft12_framer.md R67 to R71). -/

namespace Sys2Proof
open Machine

/-- Settles O34, by the three answers of the parse. -/
theorem appendExtractsAsTryParse : Obligations.AppendExtractsAsTryParse := by
  intro s bytes u t hfits h
  obtain rfl := Host.Outcome.next.inj ((exec_ft12TryParse _ u).symm.trans h)
  refine ⟨fun f c hout => ?_, fun hout => ?_, fun c hout => ?_⟩
  · exact exec_ft12Append_of_ok hfits (toResult_eq_ft12Parsed.1 (Option.some.inj hout))
  · exact exec_ft12Append_of_needMore hfits (Parse.toResult_eq_needMore.1 (Option.some.inj hout))
  · exact exec_ft12Append_of_error hfits (Parse.toResult_eq_error.1 (Option.some.inj hout))

/-- Settles O35: an append overflows exactly when the capacity test fails, which every capacity passes up to itself. -/
theorem overflowingAppendIsRefusedWhole : Obligations.OverflowingAppendIsRefusedWhole := by
  refine ⟨fun cap acc bytes hcap => ⟨fun hover => ?_, fun hfits => ?_⟩, fun acc bytes => ?_, le_accCap 261 le_rfl,
    fun s bytes => exec_ft12Append bytes s⟩
  · exact accAppend_eq_overflow (Bool.eq_false_iff.2 (mt (capFits_some hcap _).1 (Nat.not_le.2 hover)))
  · exact accAppend_ne_overflow ((capFits_some hcap _).2 hfits)
  · exact accAppend_ne_overflow (capFits_none _)

/-- Settles O36: LEN + 6 is at most 261, which fits whatever the capacity, and is what the parse waits for. -/
theorem awaitedBytesAlwaysFit : Obligations.AwaitedBytesAlwaysFit := by
  intro s bytes _ hheader hlen
  have hmax := byteAt_toNat_le s.acc 1
  have hfits := capFits_of_le Config.accCap (s.acc.length + bytes.length) (by rw [ft12FrameMax]; omega)
  have hverdict : ft12TryParse (s.acc ++ bytes) ≠ .needMore := by
    rw [ft12TryParse_ne_needMore, byteAt_append_left s.acc bytes 1 (by omega), List.length_append, hlen]
  exact ⟨_, exec_ft12Append bytes s, mt Option.some.inj (accAppend_ne_overflow hfits),
    mt Option.some.inj (accAppend_ne_needMore hverdict)⟩

/-- Settles O37: the parse's error is final for the content, so an append that fits answers it again. -/
theorem formatErrorPersistsInAcc : Obligations.FormatErrorPersistsInAcc := by
  constructor
  · intro s t bytes c h hout hc
    obtain rfl := Host.Outcome.next.inj ((exec_ft12Append bytes s).symm.trans h)
    obtain ⟨hacc, hparse⟩ := accAppend_formatError hc (Option.some.inj hout)
    exact ⟨hacc, by rw [State.StuckOn, hacc, hparse]⟩
  · intro s bytes c hstuck
    cases hfits : capFits Config.accCap (s.acc.length + bytes.length) with
    | true =>
      exact .inl (exec_ft12Append_of_error ((capFits_accCap _).1 hfits) (ft12TryParse_append_error hstuck bytes))
    | false =>
      refine .inr ?_
      rw [exec_ft12Append, accAppend_eq_overflow hfits]
      rfl

/-- Settles O40: each append delivers the frame at the head of the content and leaves what follows. -/
theorem oneFramePerAppend : Obligations.OneFramePerAppend := by
  intro f g tail bytes s hf hg hfits hacc
  rw [List.append_assoc] at hacc
  refine ⟨_, exec_ft12Append_delivers hf hfits hacc, rfl, rfl, exec_ft12Append_delivers hg (fun cap hcap => ?_) ?_⟩
  · have hlen := congrArg List.length hacc
    have hle := hfits cap hcap
    simp only [List.length_append, List.length_nil] at hlen ⊢
    omega
  · exact List.append_nil _

/-- Settles O42, by the induction over the pieces, from an empty `ACC`. -/
theorem fragmentedFrameIsReassembled : Obligations.FragmentedFrameIsReassembled := by
  intro f ps q s rest hf hacc hq himage hpending
  have hrun := run_pieces hf hq rest ps s (by rwa [hacc]) hpending
  rwa [hacc] at hrun

/-- Settles O43: the image is accepted, so with another byte in its checksum's place it passes every test up to that of
the checksum. -/
theorem corruptedChecksumIsRejected : Obligations.CorruptedChecksumIsRejected := by
  intro f b w s hf hb hw
  have hL : 4 + (byteAt (ft12Image f) 1).toNat = 7 + f.data.length := by rw [byteAt_one_ft12Image hf]; omega
  have haccept := ft12TryParse_image hf []
  rw [List.append_nil] at haccept
  have hreject := ft12TryParse_set_checksum haccept (b := b) (by
    rwa [byteAt_one_ft12Image hf, byteAt_ft12Image_checksum, ← sumMod256_eq_checksum])
  rw [hL, ← hw] at hreject
  refine ⟨by rw [exec_ft12TryParse, hreject]; rfl, fun hacc => ?_⟩
  have hlen : w.length ≤ 261 := by rw [hw, List.length_set, ft12Image_length]; omega
  have happend := exec_ft12Append_of_error (s := s) (bytes := w) (le_accCap _ (by simpa [hacc] using hlen))
    (by rwa [hacc])
  rwa [hacc] at happend

end Sys2Proof
end

section
/-! SUPPORT. The APCI operands, encoders and parse said once: which operand bytes hold a sequence number (R84), that an
encoder writes the image of its frame or refuses (R81 to R86), that the parse accepts an image with any bytes after it
(R90), and what each answer of the parse says of its buffer (R87). -/

namespace Sys2Proof

/-! Sequence-number operands (R84; the two bytes are log entry 4). -/

theorem seqOperand_eq_some {lo hi : Byte} {q : Seq15} (h : q.toNat = lo.toNat + 256 * hi.toNat) :
    seqOperand lo hi = some q := by
  have hword : (word16 lo hi).toNat = q.toNat := by rw [word16_toNat, h]
  have hvalue : (word16 lo hi).setWidth 15 = q := BitVec.eq_of_toNat_eq (by simp [hword, q.isLt])
  rw [seqOperand, hword, hvalue, if_pos q.isLt]

theorem seqOperand_eq_none {lo hi : Byte} (h : 32768 ≤ lo.toNat + 256 * hi.toNat) : seqOperand lo hi = none := by
  rw [seqOperand, word16_toNat, if_neg (Nat.not_lt.2 h)]

theorem decode_selectEncS (operands : List Byte) : decode (.operation 0x9 operands) = decodeApciEncS operands := rfl

theorem decode_selectEncI (operands : List Byte) : decode (.operation 0x8 operands) = decodeApciEncI operands := rfl

theorem decode_apciEncS_wide {lo hi : Byte} (h : seqOperand lo hi = none) :
    decode (.operation 0x9 [lo, hi]) = .error .seqTooWide := by
  rw [decode_selectEncS, decodeApciEncS, h]

theorem decode_apciEncS_narrow {lo hi : Byte} {r : Seq15} (h : seqOperand lo hi = some r) :
    decode (.operation 0x9 [lo, hi]) = .ok (.apciEncS r) := by
  rw [decode_selectEncS, decodeApciEncS, h]

theorem decode_apciEncI_wide {s0 s1 r0 r1 : Byte} (h : seqOperand s0 s1 = none ∨ seqOperand r0 r1 = none)
    (payload : List Byte) :
    decode (.operation 0x8 (s0 :: s1 :: r0 :: r1 :: payload)) = .error .seqTooWide := by
  rw [decode_selectEncI]
  rcases h with h | h
  · simp [decodeApciEncI, h]
  · cases hs : seqOperand s0 s1 <;> simp [decodeApciEncI, h, hs]

theorem decode_apciEncI_narrow {s0 s1 r0 r1 : Byte} {q r : Seq15} (hq : seqOperand s0 s1 = some q)
    (hr : seqOperand r0 r1 = some r) (payload : List Byte) :
    decode (.operation 0x8 (s0 :: s1 :: r0 :: r1 :: payload)) = .ok (.apciEncI q r payload) := by
  rw [decode_selectEncI]
  simp [decodeApciEncI, hq, hr]

/-! The image of a frame is what its encoder lays out (R45, R50). -/

theorem wordImage_toNat (v : Word16) : wordImage v.toNat = word16Bytes v := by
  rw [wordImage, word16Bytes, loByte_eq_ofNat, hiByte_eq_ofNat]

theorem wordImage_two_mul (q : Seq15) : wordImage (2 * q.toNat) = word16Bytes (seqWord q 0#1) := by
  rw [← wordImage_toNat, seqWord_toNat]
  rfl

namespace Machine

theorem apciImage_i (q r : Seq15) (payload : List Byte) : apciImage (.i q r payload) =
    apciWireBytes (apciLenByte payload) (seqWord q 0#1) (seqWord r 0#1) payload := by
  rw [apciImage, wordImage_two_mul, wordImage_two_mul]
  rfl

theorem apciImage_s (r : Seq15) :
    apciImage (.s r) = apciWireBytes (apciLenByte []) (sWord 0) (seqWord r 0#1) [] := by
  rw [apciImage, wordImage_two_mul]
  rfl

theorem apciImage_u (code : Word16) : apciImage (.u code) = apciWireBytes (apciLenByte []) code 0#16 [] := by
  rw [apciImage, wordImage_toNat]
  rfl

theorem apciLenByte_toNat {payload : List Byte} (h : payload.length ≤ 251) :
    (apciLenByte payload).toNat = payload.length + 4 := by
  simp [apciLenByte, apciLenMin]
  omega

@[simp] theorem encodable_i (q r : Seq15) (payload : List Byte) :
    (ApciFrame.i q r payload).encodable = true ↔ payload.length ≤ 251 := decide_eq_true_iff

@[simp] theorem encodable_u (code : Word16) : (ApciFrame.u code).encodable = true ↔ code.toNat % 4 = 3 :=
  decide_eq_true_iff

/-! Each encoder answers the image of an encodable frame, and its own error for any other (R82, R86). -/

theorem apciEncIResult_eq (q r : Seq15) (payload : List Byte) : apciEncIResult q r payload =
    if (ApciFrame.i q r payload).encodable then .ok (.wire (apciImage (.i q r payload))) else .error .encLength := by
  rw [apciImage_i]
  rfl

theorem apciEncSResult_eq (r : Seq15) : apciEncSResult r = .ok (.wire (apciImage (.s r))) := by
  rw [apciImage_s]
  rfl

theorem apciEncUResult_eq (code : Word16) : apciEncUResult code =
    if (ApciFrame.u code).encodable then .ok (.wire (apciImage (.u code))) else .error .encOperand := by
  have hcode : isUCode code = (ApciFrame.u code).encodable := by
    rw [Bool.eq_iff_iff, isUCode_iff, encodable_u]
  rw [apciImage_u, apciEncUResult, hcode]

theorem eq_apciImage_of_wire {f : ApciFrame} {c : Cause} {w : List Byte}
    (h : (if f.encodable then Result.ok (.wire (apciImage f)) else .error c) = .ok (.wire w)) :
    f.encodable = true ∧ w = apciImage f := by
  split at h
  next hf =>
    cases h
    exact ⟨hf, rfl⟩
  next => cases h

/-! The parse of an image (R90). -/

/-- A laid-out frame whose LEN counts exactly its bytes is accepted, with any bytes after it. -/
theorem apciTryParse_wireBytes_append {len : Byte} {f1 f2 : Word16} {payload tail : List Byte} {f : ApciFrame}
    (hlen : len.toNat = payload.length + 4)
    (hf : apciFrameOf (apciWireBytes len f1 f2 (payload ++ tail)) len.toNat = f) :
    apciTryParse (apciWireBytes len f1 f2 payload ++ tail) = .ok f (apciWireBytes len f1 f2 payload).length := by
  have happend : apciWireBytes len f1 f2 payload ++ tail = apciWireBytes len f1 f2 (payload ++ tail) := rfl
  rw [happend, apciTryParse_wireBytes, hf, apciWireBytes_length, List.length_append, hlen, if_neg (by omega),
    if_neg (by omega)]

theorem apciTryParse_image (f : ApciFrame) (h : f.encodable = true) (tail : List Byte) :
    apciTryParse (apciImage f ++ tail) = .ok f (apciImage f).length := by
  cases f with
  | i q r payload =>
    have hlen := apciLenByte_toNat ((encodable_i q r payload).1 h)
    rw [apciImage_i]
    exact apciTryParse_wireBytes_append hlen (by rw [apciFrameOf_iWord, hlen, Nat.add_sub_cancel, List.take_left])
  | s r =>
    rw [apciImage_s]
    exact apciTryParse_wireBytes_append rfl (apciFrameOf_sWord _ _ _ _ _ _)
  | u code =>
    rw [apciImage_u]
    exact apciTryParse_wireBytes_append rfl (apciFrameOf_uWord ((encodable_u code).1 h) _ _ _ _)

/-! What each answer of the parse says of the buffer (R87). -/

/-- Which error is answered, by the tests before and at it (R87 lines 2 and 4). -/
theorem apciTryParse_error (buf : List Byte) (c : Cause) : apciTryParse buf = .error c ↔
    (c = .apciStart ∧ 2 ≤ buf.length ∧ byteAt buf 0 ≠ startByte) ∨
    (c = .apciLenShort ∧ 2 ≤ buf.length ∧ byteAt buf 0 = startByte ∧ ¬ 4 ≤ (byteAt buf 1).toNat) := by
  unfold apciTryParse
  dsimp only
  rw [← Nat.not_lt, ← Nat.not_lt, not_not, apciLenMin]
  split_ifs with hheader hstart hshort hmissing
  · simp [hheader]
  · simp [hheader, hstart, eq_comm]
  · simp [hheader, not_not.1 hstart, hshort, eq_comm]
  · simp [not_not.1 hstart, hshort]
  · simp [not_not.1 hstart, hshort]

theorem apciTryParse_append_error {buf : List Byte} {c : Cause} (h : apciTryParse buf = .error c) (tail : List Byte) :
    apciTryParse (buf ++ tail) = .error c := by
  rw [apciTryParse_error] at h ⊢
  have hheader : 2 ≤ buf.length := h.elim (·.2.1) (·.2.1)
  have hlonger : 2 ≤ (buf ++ tail).length := by rw [List.length_append]; omega
  rw [byteAt_append_left buf tail 0 (by omega), byteAt_append_left buf tail 1 (by omega)]
  exact h.imp (fun ⟨hc, _, htests⟩ => ⟨hc, hlonger, htests⟩) (fun ⟨hc, _, htests⟩ => ⟨hc, hlonger, htests⟩)

/-- The parse behind an answer OK of APCI.TRYPARSE. -/
theorem toResult_eq_apciParsed {p : Parse ApciFrame} {f : ApciFrame} {c : Nat} :
    p.toResult .apciParsed = .ok (.apciParsed f c) ↔ p = .ok f c := by
  cases p <;> simp [Parse.toResult]

theorem apciFrameOf_of_mod_four_eq_one {buf : List Byte} (h : (word16At buf 2).toNat % 4 = 1) (n : Nat) :
    apciFrameOf buf n = .s (seqOf (word16At buf 4)) := by
  have hodd : ¬ (word16At buf 2).toNat % 2 = 0 := by omega
  simp [apciFrameOf, and_one_eq_zero_iff, and_three_eq_one_iff, h, hodd]

theorem apciFrameOf_of_mod_four_eq_three {buf : List Byte} (h : (word16At buf 2).toNat % 4 = 3) (n : Nat) :
    apciFrameOf buf n = .u (word16At buf 2) := by
  have hone : ¬ (word16At buf 2).toNat % 4 = 1 := by omega
  have hodd : ¬ (word16At buf 2).toNat % 2 = 0 := by omega
  simp [apciFrameOf, and_one_eq_zero_iff, and_three_eq_one_iff, hone, hodd]

/-! The frame is of the type that F1's two low bits say, and of no other (R48). -/

section
variable (buf : List Byte) (n : Nat)

theorem controlWord_type : (word16At buf 2).toNat % 2 = 0 ∨ (word16At buf 2).toNat % 4 = 1 ∨
    (word16At buf 2).toNat % 4 = 3 := by omega

theorem i_eq_apciFrameOf (q r : Seq15) (payload : List Byte) : .i q r payload = apciFrameOf buf n ↔
    (word16At buf 2).toNat % 2 = 0 ∧ q.toNat = (word16At buf 2).toNat / 2 ∧ r.toNat = (word16At buf 4).toNat / 2 ∧
      payload = slice buf 6 (n + 2) := by
  rw [← seqOf_toNat, ← seqOf_toNat, BitVec.toNat_inj, BitVec.toNat_inj]
  rcases controlWord_type buf with h | h | h
  · simp [apciFrameOf_of_even h, h]
  · have hodd : ¬ (word16At buf 2).toNat % 2 = 0 := by omega
    simp [apciFrameOf_of_mod_four_eq_one h, hodd]
  · have hodd : ¬ (word16At buf 2).toNat % 2 = 0 := by omega
    simp [apciFrameOf_of_mod_four_eq_three h, hodd]

theorem s_eq_apciFrameOf (r : Seq15) : .s r = apciFrameOf buf n ↔
    (word16At buf 2).toNat % 4 = 1 ∧ r.toNat = (word16At buf 4).toNat / 2 := by
  rw [← seqOf_toNat, BitVec.toNat_inj]
  rcases controlWord_type buf with h | h | h
  · have hone : ¬ (word16At buf 2).toNat % 4 = 1 := by omega
    simp [apciFrameOf_of_even h, hone]
  · simp [apciFrameOf_of_mod_four_eq_one h, h]
  · simp [apciFrameOf_of_mod_four_eq_three h, h]

theorem u_eq_apciFrameOf (code : Word16) : .u code = apciFrameOf buf n ↔
    (word16At buf 2).toNat % 4 = 3 ∧ code.toNat = (word16At buf 2).toNat := by
  rw [BitVec.toNat_inj]
  rcases controlWord_type buf with h | h | h
  · have hthree : ¬ (word16At buf 2).toNat % 4 = 3 := by omega
    simp [apciFrameOf_of_even h, hthree]
  · simp [apciFrameOf_of_mod_four_eq_one h, h]
  · simp [apciFrameOf_of_mod_four_eq_three h, h]

end

end Machine
end Sys2Proof
end

section
/-! The APCI codec's operations (41_apci_codec.md R81 to R91). -/

namespace Sys2Proof
open Machine

/-- Settles O17: the two operand bytes hold a sequence number exactly when their value is below 32768. -/
theorem wideSequenceOperandsRefused : Obligations.WideSequenceOperandsRefused := by
  constructor
  · refine fun s rest lo hi h => ⟨fun hwide => ?_, fun r hr => ?_⟩
    · rw [step_rejected s _ rest _ h (decode_apciEncS_wide (seqOperand_eq_none hwide))]
      rfl
    · exact step_decoded s _ rest _ h (decode_apciEncS_narrow (seqOperand_eq_some hr))
  · refine fun s rest s0 s1 r0 r1 payload h => ⟨fun hwide => ?_, fun q r hq hr => ?_⟩
    · have hnone := hwide.imp seqOperand_eq_none seqOperand_eq_none
      rw [step_rejected s _ rest _ h (decode_apciEncI_wide hnone payload)]
      rfl
    · exact step_decoded s _ rest _ h
        (decode_apciEncI_narrow (seqOperand_eq_some hq) (seqOperand_eq_some hr) payload)

/-- Settles O45: an I-frame is encodable exactly when its payload is within the limit. -/
theorem apciEncIWritesTheFrame : Obligations.ApciEncIWritesTheFrame := by
  intro q r payload s
  rw [exec_apciEncI, apciEncIResult_eq]
  refine ⟨fun hfits => ?_, fun hlong => ?_⟩
  · rw [if_pos ((encodable_i q r payload).2 hfits)]
  · rw [if_neg (by simp [hlong])]

/-- Settles O46: every S-frame is encodable. -/
theorem apciEncSWritesTheFrame : Obligations.ApciEncSWritesTheFrame := by
  intro r s
  rw [exec_apciEncS, apciEncSResult_eq]

/-- Settles O47: a U-frame is encodable exactly when its code has low bits 11. -/
theorem apciEncUWritesTheFrame : Obligations.ApciEncUWritesTheFrame := by
  intro code s
  rw [exec_apciEncU, apciEncUResult_eq]
  refine ⟨fun hcode => ?_, fun hcode => ?_⟩
  · rw [if_pos ((encodable_u code).2 hcode)]
  · rw [if_neg (by simp [hcode])]

/-- Settles O49: each answer of the parse says which tests passed, and the answered frame which type F1's low bits name. -/
theorem apciParseDecidesInOrder : Obligations.ApciParseDecidesInOrder := by
  intro buf s
  refine ⟨_, exec_apciTryParse buf s, ?_⟩
  dsimp only
  have hok : ∀ f c, apciTryParse buf = .ok f c ↔ 2 ≤ buf.length ∧ byteAt buf 0 = 0x68#8 ∧
      4 ≤ (byteAt buf 1).toNat ∧ (byteAt buf 1).toNat + 2 ≤ buf.length ∧
      f = apciFrameOf buf (byteAt buf 1).toNat ∧ c = (byteAt buf 1).toNat + 2 := fun f c =>
    (apciTryParse_ok buf f c).trans (iff_and_self.2 fun ⟨_, _, hpresent, _⟩ => by omega)
  simp only [Parse.toResult_eq_needMore, Parse.toResult_eq_error, toResult_eq_apciParsed, ← word16_toNat]
  refine ⟨?_, ?_, ?_, fun q n p c => ?_, fun n c => ?_, fun code c => ?_⟩
  · rw [apciTryParse_needMore, Nat.not_le, Nat.not_le]
    rfl
  · simp [apciTryParse_error, startByte]
  · simp [apciTryParse_error, startByte]
  · rw [hok, i_eq_apciFrameOf]
    simp only [and_assoc]
    rfl
  · rw [hok, s_eq_apciFrameOf]
    simp only [and_assoc]
    rfl
  · rw [hok, u_eq_apciFrameOf]
    simp only [and_assoc]
    rfl

/-- Settles O51: what an encoder writes is the image of an encodable frame, which the parse accepts. -/
theorem apciRoundTrip : Obligations.ApciRoundTrip := by
  refine ⟨fun q r payload s t w h hout tail u => ?_, fun r s => ?_, fun code s t w h hout tail u => ?_,
    fun s => ⟨rfl, rfl⟩⟩
  · obtain rfl := Host.Outcome.next.inj ((exec_apciEncI q r payload s).symm.trans h)
    obtain ⟨hf, rfl⟩ := eq_apciImage_of_wire ((apciEncIResult_eq q r payload).symm.trans (Option.some.inj hout))
    rw [exec_apciTryParse, apciTryParse_image _ hf]
    rfl
  · refine ⟨_, apciEncSWritesTheFrame r s, fun tail u => ?_⟩
    rw [exec_apciTryParse, apciTryParse_image _ rfl]
    rfl
  · obtain rfl := Host.Outcome.next.inj ((exec_apciEncU code s).symm.trans h)
    obtain ⟨hf, rfl⟩ := eq_apciImage_of_wire ((apciEncUResult_eq code).symm.trans (Option.some.inj hout))
    rw [exec_apciTryParse, apciTryParse_image _ hf]
    rfl

/-- Settles O52: an error is decided by the first two bytes. -/
theorem apciFormatErrorIsFinal : Obligations.ApciFormatErrorIsFinal := by
  intro buf s t c h hout tail u
  obtain rfl := Host.Outcome.next.inj ((exec_apciTryParse buf s).symm.trans h)
  have hparse := Parse.toResult_eq_error.1 (Option.some.inj hout)
  rw [exec_apciTryParse, apciTryParse_append_error hparse]
  rfl

/-- Settles O57, by induction on the frames: a call answers the head frame and leaves the image of the others. -/
theorem hostLoopRecoversApciFrames : Obligations.HostLoopRecoversApciFrames := by
  intro fs tail hfs htail
  induction fs with
  | nil => simp [hostApciLoop, htail]
  | cons f fs ih =>
    obtain ⟨hf, hfs⟩ := List.forall_mem_cons.1 hfs
    have hparse := apciTryParse_image f hf ((fs.map apciImage).flatten ++ tail)
    rw [List.map_cons, List.flatten_cons, List.append_assoc, List.length_cons, hostApciLoop, hparse]
    dsimp only
    rw [List.drop_left, ih hfs]

/-- Settles O50: each buffer of the table is evaluated; the last has its LEN + 2 bytes, so it is accepted. -/
theorem apciParseCornerCases : Obligations.ApciParseCornerCases := by
  intro s
  have hshort : ∀ len ∈ [0x00#8, 0x01#8, 0x02#8, 0x03#8],
      exec (.apciTryParse [0x68, len]) s = .next (s.answering (.error .apciLenShort)) := by
    simp only [List.forall_mem_cons]
    exact ⟨rfl, rfl, rfl, rfl, List.forall_mem_nil _⟩
  refine ⟨rfl, rfl, rfl, rfl, hshort, rfl, rfl, rfl, rfl, rfl, rfl, rfl, rfl, rfl, rfl, rfl, rfl, rfl, rfl, rfl,
    fun rest hrest => ?_⟩
  have hparse : apciTryParse (0x68 :: 0xFF :: rest) = .ok (apciFrameOf (0x68 :: 0xFF :: rest) 255) 257 :=
    (apciTryParse_ok _ _ _).2 ⟨rfl, by simp, by simp [hrest], rfl, rfl⟩
  exact ⟨_, by rw [exec_apciTryParse, hparse]; rfl⟩

end Sys2Proof
end

section
/-! The system operations (42_system_ops.md R95, R96). -/

namespace Sys2Proof
open Machine

/-- The selects with bit 2 set are the two ranges of R54: 4 to 7 and 12 to 15. -/
theorem opIsReserved_iff : ∀ op : BitVec 4,
    opIsReserved op = true ↔ (4 ≤ op.toNat ∧ op.toNat ≤ 7) ∨ 12 ≤ op.toNat := by
  decide

/-- Settles O18: it is the equation of RESET. -/
theorem resetOperationEmptiesAcc : Obligations.ResetOperationEmptiesAcc := exec_reset

/-- Settles O19: a select of either range decodes to the reserved instruction, which answers from any state. -/
theorem reservedSelectsAnswerOpReserved : Obligations.ReservedSelectsAnswerOpReserved := by
  refine fun op operands s rest => ⟨exec_opReserved op operands s, fun hrange hpending => ?_⟩
  have hdecode : decode (.operation op operands) = .ok (.opReserved op operands) :=
    decodeOperation_reserved ((opIsReserved_iff op).2 hrange) operands
  rw [step_decoded s _ rest _ hpending hdecode]
  exact exec_opReserved op operands _

end Sys2Proof
end

section
/-! SUPPORT. The causes an operation answers (R101): each encoder its own, a parse those of its tests, an append those of the
parse and the overflow; and which of them leave `ACC` as it was (R107). -/

namespace Sys2Proof.Machine

/-! The encoders. -/

theorem ft12EncodeResult_error {f : Ft12Frame} {c : Cause} (h : ft12EncodeResult f = .error c) : c = .encLength := by
  by_cases hfits : f.data.length ≤ 252
  · rw [ft12EncodeResult_fits f hfits] at h
    cases h
  · rw [ft12EncodeResult_long f (Nat.not_le.1 hfits)] at h
    cases h
    rfl

theorem apciEncIResult_error {q r : Seq15} {payload : List Byte} {c : Cause}
    (h : apciEncIResult q r payload = .error c) : c = .encLength := by
  by_cases hfits : payload.length ≤ 251
  · rw [apciEncIResult_fits q r payload hfits] at h
    cases h
  · rw [apciEncIResult_long q r payload (Nat.not_le.1 hfits)] at h
    cases h
    rfl

theorem apciEncUResult_error {code : Word16} {c : Cause} (h : apciEncUResult code = .error c) : c = .encOperand := by
  rw [apciEncUResult_eq] at h
  split at h
  · cases h
  · cases h
    rfl

/-! The parses of a laid-out frame, whose start bytes are right (R40, R45). -/

theorem ft12TryParse_wireBytes_error {len len2 : Byte} {rest : List Byte} {c : Cause}
    (h : ft12TryParse (ft12WireBytes len len2 rest) = .error c) :
    c.ofFt12Parse = true ∧ c ≠ .ft12Start1 ∧ c ≠ .ft12Start2 := by
  refine ⟨ofFt12Parse_of_ft12TryParse_error h, ?_⟩
  have hstart1 : ¬ byteAt (ft12WireBytes len len2 rest) 0 ≠ 0x68#8 := not_not_intro rfl
  have hstart2 : ¬ byteAt (ft12WireBytes len len2 rest) 3 ≠ 0x68#8 := not_not_intro rfl
  rw [ft12TryParse_of_present ((ft12TryParse_ne_needMore _).1 (by simp [h])), if_neg hstart1, if_neg hstart2] at h
  split_ifs at h <;> cases h <;> decide

theorem apciTryParse_wireBytes_error {len : Byte} {f1 f2 : Word16} {rest : List Byte} {c : Cause}
    (h : apciTryParse (apciWireBytes len f1 f2 rest) = .error c) : c = .apciLenShort := by
  obtain ⟨-, -, hstart⟩ | ⟨hc, -⟩ := (apciTryParse_error _ c).1 h
  · exact absurd rfl hstart
  · exact hc

/-! The append. -/

/-- An append that answers an error overflowed and left the content as it was, or its parse failed (R67, R68, R70). -/
theorem accAppend_error {cap : Option Nat} {acc bytes : List Byte} {c : Cause}
    (h : (accAppend cap acc bytes).2 = .error c) :
    (c = .accOverflow ∧ (accAppend cap acc bytes).1 = acc) ∨ c.ofFt12Parse = true := by
  obtain ⟨-, happend⟩ | ⟨-, ⟨f, n, -, happend⟩ | ⟨-, happend⟩ | ⟨e, hparse, happend⟩⟩ := accAppend_cases cap acc bytes
  · rw [happend] at h ⊢
    cases h
    exact .inl ⟨rfl, rfl⟩
  · rw [happend] at h
    cases h
  · rw [happend] at h
    cases h
  · rw [happend] at h
    cases h
    exact .inr (ofFt12Parse_of_ft12TryParse_error hparse)

/-- The causes of the FT1.2 parse are the source's format errors (R101, R102). -/
theorem cls_of_ofFt12Parse {c : Cause} (h : c.ofFt12Parse = true) : c.cls = .formatError := by
  revert h
  cases c <;> decide

end Sys2Proof.Machine
end

section
/-! SUPPORT. Which causes an instruction's outcome can carry (R101), in the terms of `mayRaise`. -/

namespace Sys2Proof.Machine

theorem ft12Frame_mayRaise {len len2 : Byte} {rest : List Byte} {c : Cause}
    (h : (ft12TryParse (ft12WireBytes len len2 rest)).toResult .ft12Parsed = .error c) :
    mayRaise (.ft12Frame len len2 rest) c = true := by
  obtain ⟨hparse, hstart1, hstart2⟩ := ft12TryParse_wireBytes_error (Parse.toResult_eq_error.1 h)
  simp [mayRaise, hparse, hstart1, hstart2]

theorem ft12Append_mayRaise {cap : Option Nat} {acc bytes : List Byte} {c : Cause}
    (h : (accAppend cap acc bytes).2 = .error c) : mayRaise (.ft12Append bytes) c = true := by
  obtain ⟨hover, -⟩ | hparse := accAppend_error h
  · simp [mayRaise, hover]
  · simp [mayRaise, hparse]

theorem apciTryParse_mayRaise {buf : List Byte} {c : Cause}
    (h : (apciTryParse buf).toResult .apciParsed = .error c) : mayRaise (.apciTryParse buf) c = true := by
  obtain ⟨hstart, -⟩ | ⟨hshort, -⟩ := (apciTryParse_error buf c).1 (Parse.toResult_eq_error.1 h)
  · simp [mayRaise, hstart]
  · simp [mayRaise, hshort]

/-- The start byte of an APCI wire row is fixed, so its parse can fail by LEN only (R87). -/
theorem apciWireBytes_raise {len : Byte} {f1 f2 : Word16} {rest : List Byte} (c : Cause)
    (h : (apciTryParse (apciWireBytes len f1 f2 rest)).toResult .apciParsed = .error c) : (c == .apciLenShort) = true :=
  beq_iff_eq.2 (apciTryParse_wireBytes_error (Parse.toResult_eq_error.1 h))

/-- Every instruction's outcome carries no cause but those the 'Raised by' column gives it (R101); a wire-frame row is run
as its parse (log entry 5). -/
theorem exec_answers_raised (i : Instr) (s : State) :
    ∃ acc r, exec i s = .next { s with acc := acc, outcome := some r } ∧ ∀ c, r = .error c → mayRaise i c = true :=
  match i with
  | .reset => ⟨_, _, exec_reset s, nofun⟩
  | .ft12Encode f => ⟨_, _, exec_ft12Encode f s, fun _ h => beq_iff_eq.2 (ft12EncodeResult_error h)⟩
  | .ft12TryParse buf =>
    ⟨_, _, exec_ft12TryParse buf s, fun _ h => ofFt12Parse_of_ft12TryParse_error (Parse.toResult_eq_error.1 h)⟩
  | .ft12Append bytes => ⟨_, _, exec_ft12Append bytes s, fun _ => ft12Append_mayRaise⟩
  | .apciEncI q r payload => ⟨_, _, exec_apciEncI q r payload s, fun _ h => beq_iff_eq.2 (apciEncIResult_error h)⟩
  | .apciEncS r => ⟨_, _, exec_apciEncS r s, nofun⟩
  | .apciEncU code => ⟨_, _, exec_apciEncU code s, fun _ h => beq_iff_eq.2 (apciEncUResult_error h)⟩
  | .apciTryParse buf => ⟨_, _, exec_apciTryParse buf s, fun _ => apciTryParse_mayRaise⟩
  | .opReserved op operands => ⟨_, _, exec_opReserved op operands s, fun | _, rfl => rfl⟩
  | .ft12Frame len len2 rest => ⟨_, _, exec_ft12Frame len len2 rest s, fun _ => ft12Frame_mayRaise⟩
  | .apciI len q r spare rest => ⟨_, _, exec_apciI len q r spare rest s, apciWireBytes_raise⟩
  | .apciS len high r spare rest => ⟨_, _, exec_apciS len high r spare rest s, apciWireBytes_raise⟩
  | .apciU len code f2 rest => ⟨_, _, exec_apciU len code f2 rest s, apciWireBytes_raise⟩
  | .apciUStartdtAct len f2 rest => ⟨_, _, exec_apciUStartdtAct len f2 rest s, apciWireBytes_raise⟩
  | .apciUStartdtCon len f2 rest => ⟨_, _, exec_apciUStartdtCon len f2 rest s, apciWireBytes_raise⟩
  | .apciUStopdtAct len f2 rest => ⟨_, _, exec_apciUStopdtAct len f2 rest s, apciWireBytes_raise⟩
  | .apciUStopdtCon len f2 rest => ⟨_, _, exec_apciUStopdtCon len f2 rest s, apciWireBytes_raise⟩
  | .apciUTestfrAct len f2 rest => ⟨_, _, exec_apciUTestfrAct len f2 rest s, apciWireBytes_raise⟩
  | .apciUTestfrCon len f2 rest => ⟨_, _, exec_apciUTestfrCon len f2 rest s, apciWireBytes_raise⟩

end Sys2Proof.Machine
end

section
/-! SUPPORT. The cause that a cause code names (R101). -/

namespace Sys2Proof.Machine

/-- The table of R101, in its order. -/
def Cause.table : List Cause :=
  [.ft12Start1, .ft12Start2, .ft12LenDup, .ft12LenShort, .ft12Checksum, .ft12End, .apciStart, .apciLenShort, .encLength,
    .encOperand, .accOverflow, .opReserved]

/-- The first cause of the table with this code. -/
def Cause.ofCode (b : Byte) : Option Cause := Cause.table.find? fun c => c.code == b

/-- Every cause stands in the table, and no cause before it has its code. -/
theorem Cause.ofCode_code (c : Cause) : Cause.ofCode c.code = some c := by
  cases c <;> rfl

theorem Cause.code_injective : Function.Injective Cause.code := fun a b h =>
  Option.some.inj (by rw [← Cause.ofCode_code a, h, Cause.ofCode_code b])

end Sys2Proof.Machine
end

section
/-! Outcomes and errors (60_exceptions.md R100 to R112). -/

namespace Sys2Proof
open Machine

/-- Settles O4: the step's equations for the four things it can find pending; a rejected request stops it under the name
of the decoder's reason. -/
theorem stepStopsOnlyOnRejectedOperands : Obligations.StepStopsOnlyOnRejectedOperands := by
  intro s
  cases hp : s.pending with
  | nil => exact .inl ⟨s, step_idle s hp⟩
  | cons x rest =>
    cases x with
    | resetAsserted => exact .inl ⟨_, step_resetAsserted s rest hp⟩
    | request r =>
      cases hd : decode r with
      | ok i =>
        obtain ⟨acc, q, hexec, -⟩ := exec_answers_legal i { s with pending := rest }
        exact .inl ⟨_, (step_decoded s r rest i hp hd).trans hexec⟩
      | error e =>
        have hstop := step_rejected s r rest e hp hd
        refine .inr ⟨r, rest, e, rfl, hd, ?_⟩
        cases e with
        | operandsMissing => exact .inl ⟨rfl, hstop⟩
        | operandsLeftOver => exact .inr (.inl ⟨rfl, hstop⟩)
        | seqTooWide => exact .inr (.inr ⟨rfl, hstop⟩)

/-- Settles O21: each instruction's outcome carries only causes that it may raise. -/
theorem causesComeFromTheirOperations : Obligations.CausesComeFromTheirOperations := by
  intro i s t c h hout
  obtain ⟨acc, r, hexec, hraised⟩ := exec_answers_raised i s
  obtain rfl := Host.Outcome.next.inj (hexec.symm.trans h)
  exact hraised c (Option.some.inj hout)

/-- Settles O22: only RESET and FT12.APPEND write `ACC`; RESET answers no error, and an append's only error of class spec is
the overflow, which leaves `ACC` as it was. -/
theorem specErrorsChangeNothing : Obligations.SpecErrorsChangeNothing := by
  intro i s t c h hout hspec
  cases hw : i.writesAcc with
  | false =>
    obtain ⟨r, hexec⟩ := exec_of_not_writesAcc i hw
    obtain rfl := Host.Outcome.next.inj ((hexec s).symm.trans h)
    rw [Option.some.inj hout]
  | true =>
    obtain rfl | ⟨bytes, rfl⟩ := (writesAcc_iff i).1 hw
    · obtain rfl := Host.Outcome.next.inj ((exec_reset s).symm.trans h)
      cases hout
    · obtain rfl := Host.Outcome.next.inj ((exec_ft12Append bytes s).symm.trans h)
      obtain ⟨-, hacc⟩ | hparse := accAppend_error (Option.some.inj hout)
      · rw [hacc, Option.some.inj hout]
        rfl
      · cases (cls_of_ofFt12Parse hparse).symm.trans hspec

/-- Settles O5: every instruction answers a legal outcome and writes at most `ACC` beside it. -/
theorem everyInstructionEndsWithAnOutcome : Obligations.EveryInstructionEndsWithAnOutcome := by
  intro i s
  obtain ⟨acc, r, hexec, -⟩ := exec_answers_legal i s
  exact ⟨acc, r, hexec⟩

/-- Settles O20: the codes are those of the table, and a cause code names the cause it is looked up as. -/
theorem outcomeAndCauseCodes : Obligations.OutcomeAndCauseCodes :=
  ⟨fun _ => rfl, rfl, fun _ => rfl, rfl, rfl, rfl, rfl, rfl, rfl, rfl, rfl, rfl, rfl, rfl, rfl,
    fun _ _ h => Cause.code_injective h⟩

end Sys2Proof
end

section
/-! SUPPORT. The persistent-error condition (R68, R108, R123): what an accumulator that has failed keeps through every
input but a reset. -/

namespace Sys2Proof.Machine

/-! What answers a delivered frame: an append only (R67). -/

theorem ft12EncodeResult_delivers (f : Ft12Frame) : (ft12EncodeResult f).delivers = false := by
  unfold ft12EncodeResult
  split <;> rfl

theorem apciEncIResult_delivers (q r : Seq15) (payload : List Byte) :
    (apciEncIResult q r payload).delivers = false := by
  unfold apciEncIResult
  split <;> rfl

theorem apciEncUResult_delivers (code : Word16) : (apciEncUResult code).delivers = false := by
  unfold apciEncUResult
  split <;> rfl

/-- A frame that FT12.TRYPARSE answers was not extracted from the accumulator. -/
theorem ft12Parse_delivers (buf : List Byte) : ((ft12TryParse buf).toResult .ft12Parsed).delivers = false := by
  cases ft12TryParse buf <;> rfl

theorem apciParse_delivers (buf : List Byte) : ((apciTryParse buf).toResult .apciParsed).delivers = false := by
  cases apciTryParse buf <;> rfl

/-- An instruction that does not write `ACC` delivers nothing from it; a wire-frame row is run as its parse (log
entry 5). -/
theorem delivers_of_exec_answering {s : State} {r : Result} :
    ∀ i : Instr, i.writesAcc = false → exec i s = .next (s.answering r) → r.delivers = false
  | .reset, h, _ | .ft12Append _, h, _ => nomatch h
  | .ft12Encode f, _, h => answering_next_inj.1 h ▸ ft12EncodeResult_delivers f
  | .ft12TryParse buf, _, h => answering_next_inj.1 h ▸ ft12Parse_delivers buf
  | .apciEncI q r payload, _, h => answering_next_inj.1 h ▸ apciEncIResult_delivers q r payload
  | .apciEncS _, _, h => answering_next_inj.1 h ▸ rfl
  | .apciEncU code, _, h => answering_next_inj.1 h ▸ apciEncUResult_delivers code
  | .apciTryParse buf, _, h => answering_next_inj.1 h ▸ apciParse_delivers buf
  | .opReserved _ _, _, h => answering_next_inj.1 h ▸ rfl
  | .ft12Frame _ _ _, _, h => answering_next_inj.1 h ▸ ft12Parse_delivers _
  | .apciI _ _ _ _ _, _, h | .apciS _ _ _ _ _, _, h | .apciU _ _ _ _, _, h | .apciUStartdtAct _ _ _, _, h
  | .apciUStartdtCon _ _ _, _, h | .apciUStopdtAct _ _ _, _, h | .apciUStopdtCon _ _ _, _, h
  | .apciUTestfrAct _ _ _, _, h | .apciUTestfrCon _ _ _, _, h => answering_next_inj.1 h ▸ apciParse_delivers _

theorem nothingDelivered_of_outcome {s : State} {r : Result} (h : s.outcome = some r) (hr : r.delivers = false) :
    s.NothingDelivered := by
  intro q hq
  obtain rfl := Option.some.inj (h.symm.trans hq)
  exact hr

/-! The invariant of a failed accumulator. -/

/-- `ACC` fails with the cause `c` and still begins with the bytes `base`, and the host sees no frame extracted from
it. -/
structure State.FailedWith (base : List Byte) (c : Cause) (s : State) : Prop where
  stuck : s.StuckOn c
  undelivered : s.NothingDelivered
  kept : ∃ more, s.acc = base ++ more

theorem State.StuckOn.failedWith {s : State} {c : Cause} (h : s.StuckOn c) (hout : s.NothingDelivered) :
    s.FailedWith s.acc c := ⟨h, hout, [], (List.append_nil _).symm⟩

/-- An instruction that does not write `ACC` keeps it failed, and an append fails again or overflows (R68); only RESET
is left out. -/
theorem exec_failedWith {base : List Byte} {c : Cause} {i : Instr} {s t : State} (hs : s.FailedWith base c)
    (hi : i ≠ .reset) (h : exec i s = .next t) : t.FailedWith base c := by
  obtain ⟨hstuck, -, more, hkept⟩ := hs
  cases hw : i.writesAcc with
  | false =>
    obtain ⟨r, hexec⟩ := exec_of_not_writesAcc i hw
    obtain rfl := Host.Outcome.next.inj ((hexec s).symm.trans h)
    exact ⟨hstuck, nothingDelivered_of_outcome rfl (delivers_of_exec_answering i hw h), more, hkept⟩
  | true =>
    obtain rfl | ⟨bytes, rfl⟩ := (writesAcc_iff i).1 hw
    · exact absurd rfl hi
    · obtain hfail | hover := formatErrorPersistsInAcc.2 s bytes c hstuck
      · obtain rfl := Host.Outcome.next.inj (hfail.symm.trans h)
        exact ⟨ft12TryParse_append_error hstuck bytes, nothingDelivered_of_outcome rfl rfl, more ++ bytes,
          by rw [hkept, List.append_assoc]⟩
      · obtain rfl := Host.Outcome.next.inj (hover.symm.trans h)
        exact ⟨hstuck, nothingDelivered_of_outcome rfl rfl, more, hkept⟩

/-- A step whose input, if there is one, is no reset keeps the accumulator failed. -/
theorem step_failedWith {base : List Byte} {c : Cause} {s t : State} (hs : s.FailedWith base c)
    (hinput : ∀ x rest, s.pending = x :: rest → x.isReset = false) (h : step s = .next t) : t.FailedWith base c := by
  obtain ⟨-, rfl⟩ | ⟨rest, hp, -⟩ | ⟨r, rest, i, hp, hd, hexec⟩ := step_cases h
  · exact hs
  · cases hinput _ rest hp
  · have htaken : State.FailedWith base c { s with pending := rest } := ⟨hs.stuck, hs.undelivered, hs.kept⟩
    refine exec_failedWith htaken ?_ hexec
    rintro rfl
    exact of_decide_eq_false (hinput _ rest hp) hd

/-- A run whose inputs, those it takes, are no resets keeps the accumulator failed. -/
theorem run_failedWith {base : List Byte} {c : Cause} {t : State} (k : Nat) :
    ∀ s : State, s.FailedWith base c → (∀ x ∈ s.pending.take k, x.isReset = false) →
      Host.Core.run Sys2Proof.core k s = .next t → t.FailedWith base c := by
  induction k with
  | zero =>
    intro s hs _ h
    obtain rfl := Host.Outcome.next.inj ((core_run_zero s).symm.trans h)
    exact hs
  | succ k ih =>
    intro s hs hinputs h
    obtain ⟨m, hstep, hrun⟩ := core_run_next h
    refine ih m (step_failedWith hs (fun x rest hp => hinputs x (by simp [hp])) hstep) (fun x hx => ?_) hrun
    rw [stepTakesInputsInOrder s m hstep] at hx
    exact hinputs x (List.mem_of_mem_tail (by rwa [List.tail_take_eq_take_tail]))

end Sys2Proof.Machine
end

section
/-! Reset and hazards (70_reset_and_hazards.md R123 to R126). -/

namespace Sys2Proof
open Machine

/-- Settles O38: an append that ends in a format error leaves the accumulator failed and answers no frame, and a run
without a reset keeps it so. -/
theorem noFrameAfterFormatErrorUntilReset : Obligations.NoFrameAfterFormatErrorUntilReset := by
  have hrun : ∀ (k : Nat) (s t : State) (c : Cause), s.StuckOn c → s.NothingDelivered →
      (∀ x ∈ s.pending.take k, x.isReset = false) → Host.Core.run Sys2Proof.core k s = .next t →
      t.StuckOn c ∧ t.NothingDelivered ∧ ∃ more, t.acc = s.acc ++ more := by
    intro k s t c hstuck hnone hinputs h
    obtain ⟨hfails, hnothing, hkept⟩ := run_failedWith k s (hstuck.failedWith hnone) hinputs h
    exact ⟨hfails, hnothing, hkept⟩
  refine ⟨fun k r s t bytes c happend hout hc => ?_, hrun⟩
  obtain ⟨-, hstuck⟩ := formatErrorPersistsInAcc.1 r s bytes c happend hout hc
  exact hrun k s t c hstuck (nothingDelivered_of_outcome hout rfl)

/-- Settles O31: with an equal sum and an equal length, the header and checksum of the first frame are those of the
second, so that the bytes are the second frame's image. -/
theorem checksumMissesEqualSums : Obligations.ChecksumMissesEqualSums := by
  intro f g s hf hlen hsum
  have haccept := ft12TryParse_image (f := g) (hlen.trans_le hf) []
  rw [List.append_nil, ft12Image_length] at haccept
  rw [← hsum, ← hlen, ← ft12Image, exec_ft12TryParse, haccept]
  rfl

/-- Settles O44: the parse waits for LEN + 6 bytes before it reads the first byte, and tests that one first once they
are present. -/
theorem strayFirstByteIsReportedLate : Obligations.StrayFirstByteIsReportedLate := by
  intro s bytes _ hstray hfits
  refine ⟨fun hmissing => ?_, fun hpresent => ?_⟩
  · exact exec_ft12Append_of_needMore hfits ((ft12TryParse_needMore _).2 (.inr hmissing))
  · exact exec_ft12Append_of_error hfits ((ft12TryParse_of_present hpresent).trans (if_pos hstray))

end Sys2Proof
end
